-- ==== Sys2Proof/Word.lean ====
section
/-!
DEFINITION. The value types of 00_scope.md R9: every quantity of the block is an unsigned integer of a
fixed width, a natural number, or a finite list of bytes.
-/
namespace Sys2Proof

/-- A u8 (R9). -/
abbrev Byte := BitVec 8

/-- A byte string: a finite list of bytes, element 0 first (R9). -/
abbrev Bytes := List Byte

/-- A 64-bit command word (30_encoding.md R62). -/
abbrev Word := BitVec 64

/-- `'$'`, the frame terminator, 0x24 (R9, 30_encoding.md R73). -/
abbrev dollar : Byte := 0x24#8

end Sys2Proof
end

