-- ==== Sys2Proof/Config.lean ====
section
/-!
DEFINITION. The implementation parameters of 00_scope.md R5 and their well-formedness (R7), and the two
functions the spec leaves free: JSON_CANON and the answers of the I2C transport.
-/
namespace Sys2Proof

/-- A capacity that is a natural number or `inf` (R5: ACC_CAP, SLOT_CAP). -/
inductive Cap where
  | bounded (n : Nat)
  | inf
  deriving DecidableEq, Repr, Inhabited

/-- HEX_SCOPE (R5): which of the six argument digits must be valid hex. -/
inductive HexScope where
  | all6
  | last2
  deriving DecidableEq, Repr, Inhabited

/-- MODE (R5): the channel order, 42_pixel_codec.md R129. -/
inductive Mode where
  | grb
  | rgb
  | rgbw
  deriving DecidableEq, Repr, Inhabited

/-- A choice of a value for every parameter of R5 that can be written as data. The field defaults only
show that a well-formed choice exists; no meaning and no statement rests on them.

`colorTable` is COLOR_TABLE, a function from u8 to a u24 or `none`, written as its finite list of
defined entries (a code listed nowhere is `none`). N_STATUS is the length of `statusNames`. -/
structure Params where
  accCap : Cap := .inf
  hexScope : HexScope := .all6
  syncWord : BitVec 16 := 0
  maxLen : BitVec 16 := 8192#16
  aiAddr : BitVec 7 := 0
  statusNames : List Bytes := []
  slotCap : Cap := .inf
  colorTable : List (Byte × BitVec 24) := []
  mode : Mode := .grb
  bufPixels : BitVec 16 := 0
  start : BitVec 16 := 0
  count : BitVec 16 := 0
  deriving DecidableEq, Repr, Inhabited

namespace Params

/-- N_STATUS, the length of STATUS_NAMES (R5). -/
def nStatus (p : Params) : Nat := p.statusNames.length

/-- STRIDE (R5): 4 when MODE is RGBW, else 3. -/
def stride (p : Params) : Nat :=
  match p.mode with
  | .grb => 3
  | .rgb => 3
  | .rgbw => 4

/-- The buffer length in bytes, BUF_PIXELS × STRIDE (10_state.md R21). -/
def bufSize (p : Params) : Nat := p.bufPixels.toNat * p.stride

/-- The first offset of the active region (20_memory.md R41). -/
def activeLo (p : Params) : Nat := p.start.toNat * p.stride

/-- One past the last offset of the active region (20_memory.md R41). -/
def activeHi (p : Params) : Nat := (p.start.toNat + p.count.toNat) * p.stride

/-- R7, first condition: ACC_CAP is `inf` or at least 8. -/
def accCapOk (p : Params) : Bool :=
  match p.accCap with
  | .inf => true
  | .bounded n => decide (8 ≤ n)

/-- R7, second condition: the active region lies in the buffer. -/
def regionOk (p : Params) : Bool := decide (p.start.toNat + p.count.toNat ≤ p.bufPixels.toNat)

/-- R7, third condition: every buffer offset fits the 32-bit operand of PIX_READ. With the 16-bit
BUF_PIXELS of R5 it always holds. -/
def offsetsOk (p : Params) : Bool := decide (p.bufPixels.toNat * p.stride ≤ 2 ^ 32)

/-- R7, fourth condition: the sentinel index COUNT fits the 16-bit index field. With the 16-bit COUNT
of R5 it always holds. -/
def sentinelOk (p : Params) : Bool := decide (p.count.toNat ≤ 65535)

/-- R7, fifth condition: N_STATUS ≤ 256. -/
def statusOk (p : Params) : Bool := decide (p.nStatus ≤ 256)

/-- R7, sixth condition: MAX_LEN = 8192. -/
def maxLenOk (p : Params) : Bool := p.maxLen == 8192#16

/-- R7: a configuration is well formed only when all six conditions hold. -/
def wf (p : Params) : Bool :=
  p.accCapOk && p.regionOk && p.offsetsOk && p.sentinelOk && p.statusOk && p.maxLenOk

end Params

/-- A well-formed configuration: the parameters and the fact that they meet R7. An ill-formed
configuration has no value of this type, so it has no runs (R7, 60_exceptions.md R175). -/
structure Config extends Params where
  ok : toParams.wf = true := by decide
  deriving DecidableEq, Repr, Inhabited

/-- The configuration the integrator fixed before reset was released (70_reset_and_hazards.md R181).
OPEN in R5: opaque, so nothing can be proved of it but that it is well formed. Safe; log 3. -/
opaque Config.chosen : Config

/-- JSON_CANON (R5, 41_ai_framer.md R111): a total function of the payload bytes alone, to the
canonical text or `none`. OPEN: opaque, nothing else is assumed of it. Safe; log 4. -/
opaque Config.jsonCanon : Bytes → Option Bytes

/-- The free value of an I2C read (20_memory.md R58: "any byte string ..., under no law"), for the
k-th read that no script answers. Opaque. Safe; log 5. -/
opaque Config.i2cDraw : Nat → Bytes

/-- TELEM_SCALE_X100 (R5). -/
def Config.telemScaleX100 : Nat := 7863

end Sys2Proof
end

