-- ==== Sys2Proof/Syntax.lean ====
section
/-!
DEFINITION. The commands of IOTH-PC/1 (30_encoding.md R69), one constructor per row of the opcode table,
and the source form an assembler reads (R78 to R81).
-/
namespace Sys2Proof

/-- A decoded command with its operands, each at its field's own width (30_encoding.md R64, R69). -/
inductive Instr where
  /-- NOP, OPCODE 0x00, format N (43_control.md R151). -/
  | nop
  /-- REG_READ, OPCODE 0x01, format B (43_control.md R152). -/
  | regRead (reg : BitVec 8)
  /-- SER_FEED, OPCODE 0x10, format B (40_serial_framer.md R91). -/
  | serFeed (b : BitVec 8)
  /-- SER_EXTRACT, OPCODE 0x11, format N (R93). -/
  | serExtract
  /-- SER_DRAIN, OPCODE 0x12, format N (R95). -/
  | serDrain
  /-- AI_POLL, OPCODE 0x20, format N (41_ai_framer.md R109). -/
  | aiPoll
  /-- AI_TAKE, OPCODE 0x21, format N (R113). -/
  | aiTake
  /-- PIX_SET, OPCODE 0x30, format IC (42_pixel_codec.md R132). -/
  | pixSet (idx : BitVec 16) (col : BitVec 8)
  /-- PIX_SET_RGB, OPCODE 0x31, format IRGB (R133). -/
  | pixSetRgb (idx : BitVec 16) (r g b : BitVec 8)
  /-- PIX_CLEAR, OPCODE 0x32, format N (R134). -/
  | pixClear
  /-- PIX_BRIGHT, OPCODE 0x33, format B (R136). -/
  | pixBright (level : BitVec 8)
  /-- PIX_SHOW, OPCODE 0x34, format N (R138). -/
  | pixShow
  /-- PIX_READ, OPCODE 0x35, format W (R140). -/
  | pixRead (off : BitVec 32)
  deriving DecidableEq, Repr

/-- The five word formats (30_encoding.md R63). -/
inductive Format where
  | n
  | b
  | ic
  | irgb
  | w
  deriving DecidableEq, Repr

/-- An assembler operand (30_encoding.md R79, R81). -/
inductive Operand where
  /-- A decimal or hexadecimal number. -/
  | num (n : Nat)
  /-- A character literal, which stands for its ASCII code. -/
  | chr (c : Byte)
  /-- The word `ALL`, which stands for COUNT as an index. -/
  | all
  /-- A string literal, which stands for its bytes in ASCII (pseudo-commands of R81 only). -/
  | str (s : Bytes)
  deriving DecidableEq, Repr

/-- One line of assembler source: a mnemonic and its operands in order (30_encoding.md R78). -/
structure AsmLine where
  mnemonic : String
  operands : List Operand
  deriving DecidableEq, Repr

end Sys2Proof
end

