-- ==== Sys2Proof/WellFormed.lean ====
section
/-!
DEFINITION. The checks that refuse ill-formed input by name: a configuration that breaks 00_scope.md R7,
and an assembler operand that does not fit its field (30_encoding.md R79).

A term of `Instr` needs no check: its operands carry their fields' widths, so every term is well
formed. What is ill formed exists as a command word (a reserved OPCODE or a reserved bit, refused by
Decode.lean) or as source text (refused here).
-/
namespace Sys2Proof

/-- The conditions of R7, by name. -/
inductive ConfigCheck where
  | accCap
  | region
  | offsets
  | sentinel
  | status
  | maxLen
  deriving DecidableEq, Repr

/-- Does `p` meet the condition (R7)? -/
def ConfigCheck.holds (p : Params) : ConfigCheck → Bool
  | .accCap => p.accCapOk
  | .region => p.regionOk
  | .offsets => p.offsetsOk
  | .sentinel => p.sentinelOk
  | .status => p.statusOk
  | .maxLen => p.maxLenOk

/-- The conditions of R7 that `p` breaks; none exactly when `p` is well formed. -/
def brokenChecks (p : Params) : List ConfigCheck :=
  [.accCap, .region, .offsets, .sentinel, .status, .maxLen].filter fun c => !c.holds p

/-- Refuses an ill-formed configuration, naming the conditions it breaks (R7). -/
def checkConfig (p : Params) : Except (List ConfigCheck) Config :=
  if h : p.wf = true then .ok { toParams := p, ok := h } else .error (brokenChecks p)

/-- Does an operand's value fit a field of `width` bits? "An operand must fit its field" (R79). -/
def fits (width n : Nat) : Bool := decide (n < 2 ^ width)

/-- A value as a field of `width` bits, refused and not truncated when it does not fit (R79). -/
def toField (width n : Nat) : Option (BitVec width) :=
  if fits width n then some (BitVec.ofNat width n) else none

end Sys2Proof
end

