-- ==== Sys2Proof/Decode.lean ====
section
/-!
DEFINITION. The decoder, total on every 64-bit word and every byte string (30_encoding.md R62 to R70), the
encoder after it, and the machine-readable opcode table they agree with (R68).
-/
namespace Sys2Proof

/-- Why a word decodes to ILLEGAL (R70). Every reason has the same outcome (R67). -/
inductive Illegal where
  /-- No row of R69 has this OPCODE. -/
  | unassignedOpcode (op : Byte)
  /-- A reserved bit of the row's format is 1. -/
  | reservedBit (op : Byte)
  /-- Fewer than eight bytes: no command word has arrived on the byte link (R84). -/
  | truncated
  deriving DecidableEq, Repr

/-! ### Fields (R62, R64) -/

/-- OPCODE, bits 63:56 (R62). -/
def opcodeField (w : Word) : Byte := w.extractLsb' 56 8

/-- IMM8 and COL8 and B8, bits 7:0 (R64). -/
def lowByteField (w : Word) : BitVec 8 := w.extractLsb' 0 8

/-- IDX16, bits 47:32 (R64). -/
def idxField (w : Word) : BitVec 16 := w.extractLsb' 32 16

/-- R8, bits 23:16 (R64). -/
def redField (w : Word) : BitVec 8 := w.extractLsb' 16 8

/-- G8, bits 15:8 (R64). -/
def greenField (w : Word) : BitVec 8 := w.extractLsb' 8 8

/-- OFF32, bits 31:0 (R64). -/
def offField (w : Word) : BitVec 32 := w.extractLsb' 0 32

/-- The reserved bits of a format, which must be 0 (R63). -/
def reservedMask : Format → Word
  | .n => 0x00FFFFFFFFFFFFFF#64
  | .b => 0x00FFFFFFFFFFFF00#64
  | .ic => 0x00FF0000FFFFFF00#64
  | .irgb => 0x00FF0000FF000000#64
  | .w => 0x00FFFFFF00000000#64

/-- The opcode map (R69): the format of an OPCODE's row and the command its fields spell. -/
def opcodeRow (op : Byte) (w : Word) : Option (Format × Instr) :=
  match op.toNat with
  | 0x00 => some (.n, .nop)
  | 0x01 => some (.b, .regRead (lowByteField w))
  | 0x10 => some (.b, .serFeed (lowByteField w))
  | 0x11 => some (.n, .serExtract)
  | 0x12 => some (.n, .serDrain)
  | 0x20 => some (.n, .aiPoll)
  | 0x21 => some (.n, .aiTake)
  | 0x30 => some (.ic, .pixSet (idxField w) (lowByteField w))
  | 0x31 => some (.irgb, .pixSetRgb (idxField w) (redField w) (greenField w) (lowByteField w))
  | 0x32 => some (.n, .pixClear)
  | 0x33 => some (.b, .pixBright (lowByteField w))
  | 0x34 => some (.n, .pixShow)
  | 0x35 => some (.w, .pixRead (offField w))
  | _ => none

/-- Decode (R68): the row of the word's OPCODE, ILLEGAL when there is none or a reserved bit is 1. -/
def decode (w : Word) : Except Illegal Instr :=
  match opcodeRow (opcodeField w) w with
  | none => .error (.unassignedOpcode (opcodeField w))
  | some (f, i) => if w &&& reservedMask f = 0#64 then .ok i else .error (.reservedBit (opcodeField w))

/-- The command word that eight link bytes spell, most significant byte first (R84, 20_memory.md R48). -/
def wordOfBytes (b7 b6 b5 b4 b3 b2 b1 b0 : Byte) : Word :=
  b7 ++ b6 ++ b5 ++ b4 ++ b3 ++ b2 ++ b1 ++ b0

/-- Decodes the command word at the head of a byte string and answers the bytes after it (R84). -/
def decodeBytes : Bytes → Except Illegal (Instr × Bytes)
  | b7 :: b6 :: b5 :: b4 :: b3 :: b2 :: b1 :: b0 :: rest =>
    match decode (wordOfBytes b7 b6 b5 b4 b3 b2 b1 b0) with
    | .ok i => .ok (i, rest)
    | .error e => .error e
  | _ => .error .truncated

/-- The eight bytes of a command word on a byte link, most significant first (R84). -/
def wordBytes (w : Word) : Bytes :=
  [w.extractLsb' 56 8, w.extractLsb' 48 8, w.extractLsb' 40 8, w.extractLsb' 32 8,
   w.extractLsb' 24 8, w.extractLsb' 16 8, w.extractLsb' 8 8, w.extractLsb' 0 8]

/-- The instruction the decoder reads from the word `w` of an opcode-table row (bit 0 the least
significant, as the table and R8 number them), laid out in the link's byte order. -/
def decodeTableWord (nbits w : Nat) : Option Instr :=
  match decodeBytes (wordBytes (BitVec.ofNat 64 (w % 2 ^ nbits))) with
  | .ok (i, _) => some i
  | .error _ => none

/-! ### The encoder (R62, R63, R69) -/

/-- Format N (R63): the OPCODE, then zeros. -/
def formatN (op : Byte) : Word := op ++ 0#56

/-- Format B (R63): IMM8 in bits 7:0. -/
def formatB (op : Byte) (imm : BitVec 8) : Word := op ++ 0#48 ++ imm

/-- Format IC (R63): IDX16 in bits 47:32, COL8 in bits 7:0. -/
def formatIC (op : Byte) (idx : BitVec 16) (col : BitVec 8) : Word := op ++ 0#8 ++ idx ++ 0#24 ++ col

/-- Format IRGB (R63): IDX16 in bits 47:32, then R8, G8, B8 in bits 23:0. -/
def formatIRGB (op : Byte) (idx : BitVec 16) (r g b : BitVec 8) : Word :=
  op ++ 0#8 ++ idx ++ 0#8 ++ r ++ g ++ b

/-- Format W (R63): OFF32 in bits 31:0. -/
def formatW (op : Byte) (off : BitVec 32) : Word := op ++ 0#24 ++ off

/-- The command word of a command (R62, R63, R69). -/
def encode : Instr → Word
  | .nop => formatN 0x00#8
  | .regRead reg => formatB 0x01#8 reg
  | .serFeed b => formatB 0x10#8 b
  | .serExtract => formatN 0x11#8
  | .serDrain => formatN 0x12#8
  | .aiPoll => formatN 0x20#8
  | .aiTake => formatN 0x21#8
  | .pixSet idx col => formatIC 0x30#8 idx col
  | .pixSetRgb idx r g b => formatIRGB 0x31#8 idx r g b
  | .pixClear => formatN 0x32#8
  | .pixBright level => formatB 0x33#8 level
  | .pixShow => formatN 0x34#8
  | .pixRead off => formatW 0x35#8 off

/-! ### The opcode table (R68: "`w` decodes to the row with `(w & mask) == match`") -/

/-- The mnemonic of a command (R69). -/
def mnemonicOf : Instr → String
  | .nop => "NOP"
  | .regRead _ => "REG_READ"
  | .serFeed _ => "SER_FEED"
  | .serExtract => "SER_EXTRACT"
  | .serDrain => "SER_DRAIN"
  | .aiPoll => "AI_POLL"
  | .aiTake => "AI_TAKE"
  | .pixSet _ _ => "PIX_SET"
  | .pixSetRgb _ _ _ _ => "PIX_SET_RGB"
  | .pixClear => "PIX_CLEAR"
  | .pixBright _ => "PIX_BRIGHT"
  | .pixShow => "PIX_SHOW"
  | .pixRead _ => "PIX_READ"

/-- A row of opcode_table.json. -/
structure TableRow where
  mnemonic : String
  matchBits : Word
  mask : Word
  deriving DecidableEq, Repr

/-- The rows of opcode_table.json, copied from it (R68, R69). The decoder does not read them: they are
the second account of the encoding, which the decoder must agree with. -/
def opcodeTable : List TableRow :=
  [⟨"NOP", 0x0000000000000000#64, 0xFFFFFFFFFFFFFFFF#64⟩,
   ⟨"REG_READ", 0x0100000000000000#64, 0xFFFFFFFFFFFFFF00#64⟩,
   ⟨"SER_FEED", 0x1000000000000000#64, 0xFFFFFFFFFFFFFF00#64⟩,
   ⟨"SER_EXTRACT", 0x1100000000000000#64, 0xFFFFFFFFFFFFFFFF#64⟩,
   ⟨"SER_DRAIN", 0x1200000000000000#64, 0xFFFFFFFFFFFFFFFF#64⟩,
   ⟨"AI_POLL", 0x2000000000000000#64, 0xFFFFFFFFFFFFFFFF#64⟩,
   ⟨"AI_TAKE", 0x2100000000000000#64, 0xFFFFFFFFFFFFFFFF#64⟩] ++
  [⟨"PIX_SET", 0x3000000000000000#64, 0xFFFF0000FFFFFF00#64⟩,
   ⟨"PIX_SET_RGB", 0x3100000000000000#64, 0xFFFF0000FF000000#64⟩,
   ⟨"PIX_CLEAR", 0x3200000000000000#64, 0xFFFFFFFFFFFFFFFF#64⟩,
   ⟨"PIX_BRIGHT", 0x3300000000000000#64, 0xFFFFFFFFFFFFFF00#64⟩,
   ⟨"PIX_SHOW", 0x3400000000000000#64, 0xFFFFFFFFFFFFFFFF#64⟩,
   ⟨"PIX_READ", 0x3500000000000000#64, 0xFFFFFFFF00000000#64⟩]

/-- Does `w` match the row (R68)? -/
def TableRow.matches (row : TableRow) (w : Word) : Bool := w &&& row.mask == row.matchBits

end Sys2Proof
end

