-- ==== Sys2Proof/Machine/State.lean ====
section
/-!
DEFINITION. The state of the block (10_state.md R15), with the model's own fields for the host, the
transport and the observation of a run (70_reset_and_hazards.md R191); its value after reset (R177);
outcome codes, responses, faults and refusals.
-/
namespace Sys2Proof.Machine

/-- The pixel buffer's bytes as (offset, byte) pairs in one canonical form: offsets strictly rising, no
entry equal to what an unlisted offset reads as (Machine/Memory.lean; log 8). -/
abbrev Memory := List Host.Cell

/-- The outcome codes (60_exceptions.md R157); `Code.byte` of Machine/Flags.lean gives their numbers. -/
inductive Code where
  | ok
  | illegal
  | serAccepted
  | serOverflow
  | serResyncDrop
  | serNoFrame
  | serFrameOk
  | serBadTag
  | serBadLength
  | serBadHex
  | aiOkStatus
  | aiOkJson
  | aiHdrShort
  | aiBadSync
  | aiBadLength
  | aiBodyShort
  | aiBadChecksum
  | aiBadStatusIndex
  | aiBadJson
  | pixWroteOne
  | pixWroteAll
  | pixIndexIgnored
  | pixReadRange
  deriving DecidableEq, Repr

/-- The result slot's three forms (10_state.md R19). -/
inductive Slot where
  | empty
  | status (i : Byte)
  | json (t : Bytes)
  deriving DecidableEq, Repr

/-- The response of a command: outcome, result word and text (30_encoding.md R66). -/
structure Response where
  outcome : Code
  value : BitVec 32
  text : Bytes
  deriving DecidableEq, Repr

/-- One I2C read as a run observes it (70_reset_and_hazards.md R191): the address, the count asked for
and the bytes returned. -/
structure I2CRead where
  addr : BitVec 7
  count : Nat
  returned : Bytes
  deriving DecidableEq, Repr

/-- What the host may do between commands (70_reset_and_hazards.md R192): issue any 64-bit word, legal or
not, or assert the reset input. -/
inductive HostInput where
  | command (w : Word)
  | reset
  deriving DecidableEq, Repr

/-- The block has no fault: "The block raises no exception and takes no trap" (60_exceptions.md R156),
and "no admitted command faults, sticks or hangs" (R175). Nobody raises one; safe (log 13). -/
inductive Fault where
  deriving DecidableEq, Repr

/-- Why the model gives no run. -/
inductive Refusal where
  /-- Raised by a dispatch arm whose command has no meaning yet; no arm is one. Safe. -/
  | notModelled (mnemonic : String)
  /-- Raised by `powerOn` on a configuration that breaks 00_scope.md R7: "A model refuses a
  configuration that is not well formed. It gives such a configuration no runs." Safe (log 3). -/
  | illFormedConfiguration
  deriving DecidableEq, Repr

/-- The whole machine. The first group is the spec's state record, exactly (R15); `cfg` holds the
parameters, which no command writes (00_scope.md R6); the rest is the model's own. -/
structure State where
  /-- The Serial Accumulator, oldest byte first (R16). -/
  acc : Bytes
  /-- The discard-mode bit (R17). -/
  disc : Bool
  /-- The reported telemetry value (R18). -/
  telemValue : BitVec 16
  /-- 1 once an 'A' frame has been accepted since reset (R18). -/
  telemValid : Bool
  /-- The shared "last AI result" slot (R19). -/
  slot : Slot
  /-- The brightness scalar (R20). -/
  brightness : BitVec 8
  /-- The Pixel Buffer (R21). -/
  buf : Memory
  /-- The outcome code of the most recent command (R22). -/
  lastOutcome : Code
  /-- The parameters of 00_scope.md R5 (log 3). -/
  cfg : Config
  /-- The host's inputs not yet issued, next first (R191, R192; log 1). -/
  inbox : List HostInput
  /-- Scripted answers of the I2C transport, next first (R58; log 5). -/
  i2cIn : List Bytes
  /-- How many answers the opaque transport has given (R58; log 5). -/
  freshDraws : Nat
  /-- The responses returned, oldest first (30_encoding.md R66; log 6). -/
  responses : List Response
  /-- The I2C reads issued, oldest first (R191; log 6). -/
  i2cReads : List I2CRead
  /-- The LED output history, oldest first (20_memory.md R59; log 6). -/
  ledFrames : List Bytes
  deriving DecidableEq, Repr

/-- What a family rule gives the skeleton of 30_encoding.md R67: the state with the rule's own writes and
the response `(o, v, t)`; `last_outcome` is not yet written. -/
structure Effect where
  state : State
  response : Response
  deriving DecidableEq, Repr

/-- The machine right after reset under the parameters `c`, with nothing yet issued, read or emitted
(70_reset_and_hazards.md R177 to R179). -/
def State.resetWith (c : Config) : State where
  acc := []
  disc := false
  telemValue := 0#16
  telemValid := false
  slot := .empty
  brightness := 255#8
  buf := []
  lastOutcome := .ok
  cfg := c
  inbox := []
  i2cIn := []
  freshDraws := 0
  responses := []
  i2cReads := []
  ledFrames := []

/-- The machine right after reset, under the opaque configuration the integrator fixed (R177, R181). -/
def State.reset : State := State.resetWith Config.chosen

end Sys2Proof.Machine
end

