-- ==== Sys2Proof/Machine/Flags.lean ====
section
/-!
DEFINITION. The outcome codes' numbers (60_exceptions.md R157) and the status fields of 10_state.md R23.
The block has no condition codes and no arithmetic flags.
-/
namespace Sys2Proof.Machine

/-- The 8-bit number of an outcome code (R157). -/
def Code.byte : Code → Byte
  | .ok => 0x00#8
  | .illegal => 0x01#8
  | .serAccepted => 0x10#8
  | .serOverflow => 0x11#8
  | .serResyncDrop => 0x12#8
  | .serNoFrame => 0x13#8
  | .serFrameOk => 0x14#8
  | .serBadTag => 0x15#8
  | .serBadLength => 0x16#8
  | .serBadHex => 0x17#8
  | .aiOkStatus => 0x20#8
  | .aiOkJson => 0x21#8
  | .aiHdrShort => 0x22#8
  | .aiBadSync => 0x23#8
  | .aiBadLength => 0x24#8
  | .aiBodyShort => 0x25#8
  | .aiBadChecksum => 0x26#8
  | .aiBadStatusIndex => 0x27#8
  | .aiBadJson => 0x28#8
  | .pixWroteOne => 0x30#8
  | .pixWroteAll => 0x31#8
  | .pixIndexIgnored => 0x32#8
  | .pixReadRange => 0x33#8

/-- The classes of outcomes (R157, R158). -/
inductive CodeClass where
  | success
  | nothingToDo
  | malformedFrame
  | transportShortfall
  | indexOutOfRange
  | overflow
  | illegal
  deriving DecidableEq, Repr

/-- The class of an outcome code (R157, R158). -/
def Code.codeClass : Code → CodeClass
  | .ok => .success
  | .illegal => .illegal
  | .serAccepted => .success
  | .serOverflow => .overflow
  | .serResyncDrop => .overflow
  | .serNoFrame => .nothingToDo
  | .serFrameOk => .success
  | .serBadTag => .malformedFrame
  | .serBadLength => .malformedFrame
  | .serBadHex => .malformedFrame
  | .aiOkStatus => .success
  | .aiOkJson => .success
  | .aiHdrShort => .transportShortfall
  | .aiBadSync => .malformedFrame
  | .aiBadLength => .malformedFrame
  | .aiBodyShort => .transportShortfall
  | .aiBadChecksum => .malformedFrame
  | .aiBadStatusIndex => .indexOutOfRange
  | .aiBadJson => .malformedFrame
  | .pixWroteOne => .success
  | .pixWroteAll => .success
  | .pixIndexIgnored => .indexOutOfRange
  | .pixReadRange => .indexOutOfRange

/-- The frame-pending flag: "`acc` holds a `'$'`"; computed, not stored (R23). -/
def framePending (acc : Bytes) : Bool := acc.contains dollar

/-- The slot kind: 0 for Empty, 1 for Status, 2 for Json (R23, R29). -/
def Slot.kind : Slot → BitVec 2
  | .empty => 0#2
  | .status _ => 1#2
  | .json _ => 2#2

/-- The status index when the kind is 1, else 0 (R29). -/
def Slot.index : Slot → BitVec 8
  | .empty => 0#8
  | .status i => i
  | .json _ => 0#8

/-- The length of a JSON text, saturating at 65535, when the kind is 2, else 0 (R29). -/
def Slot.textLen : Slot → BitVec 16
  | .empty => 0#16
  | .status _ => 0#16
  | .json t => BitVec.ofNat 16 (min t.length 65535)

/-- A single-bit field as a bit vector. -/
def flagBit (b : Bool) : BitVec 1 := BitVec.ofBool b

end Sys2Proof.Machine
end

