-- ==== Sys2Proof/Machine/Memory.lean ====
section
/-!
DEFINITION. The pixel buffer's store: one byte read and written at an offset (20_memory.md R46), over a
sparse list in one canonical form.
-/
namespace Sys2Proof.Machine

/-- What an unlisted offset reads as: 0, the buffer's content at reset (70_reset_and_hazards.md R177). -/
def Memory.unlisted : Byte := 0x00#8

/-- MemRead on the list (R46). -/
def Memory.read : Memory → Nat → Byte
  | [], _ => Memory.unlisted
  | (k, v) :: m, o => if k = o then v else Memory.read m o

/-- MemWrite on the list (R46): writing what an unlisted offset reads as removes the entry. -/
def Memory.write : Memory → Nat → Byte → Memory
  | [], o, v => if v = Memory.unlisted then [] else [(o, v)]
  | (k, w) :: m, o, v =>
    if o < k then (if v = Memory.unlisted then (k, w) :: m else (o, v) :: (k, w) :: m)
    else if o = k then (if v = Memory.unlisted then m else (o, v) :: m)
    else (k, w) :: Memory.write m o v

/-- The canonical form: offsets strictly rising, and no entry equal to what an unlisted offset reads as.
Two memories in this form that read alike everywhere are equal (Laws/Memory.lean). -/
abbrev Memory.wf (m : Memory) : Prop :=
  m.Pairwise (fun c d => c.1 < d.1) ∧ ∀ c ∈ m, c.2 ≠ Memory.unlisted

/-- Every listed offset exists in a buffer of `size` bytes (20_memory.md R41). -/
abbrev Memory.within (m : Memory) (size : Nat) : Prop := ∀ c ∈ m, c.1 < size

end Sys2Proof.Machine
end

