-- ==== Sys2Proof/Machine/Operands.lean ====
section
/-!
DEFINITION. What a command's operands stand for: a pixel index's target, a colour code's triple, a
scaled channel, a hex digit (40_serial_framer.md R86, 42_pixel_codec.md R126 to R128, R131), and the
comparison of a length with a capacity (00_scope.md R5).
-/
namespace Sys2Proof.Machine

/-- `hexval` (R86): `0-9A-F`, case-sensitive; `none` is INVALID, which is not 0. -/
def hexval (c : Byte) : Option (BitVec 4) :=
  if 0x30 ≤ c.toNat ∧ c.toNat ≤ 0x39 then some (BitVec.ofNat 4 (c.toNat - 0x30))
  else if 0x41 ≤ c.toNat ∧ c.toNat ≤ 0x46 then some (BitVec.ofNat 4 (c.toNat - 0x41 + 10))
  else none

/-- What a pixel index selects (R131). -/
inductive Target where
  | one (i : Nat)
  | all
  | none
  deriving DecidableEq, Repr

/-- `target` (R131): below COUNT one pixel, COUNT itself the sentinel "all", above it nothing. -/
def target (c : Config) (idx : BitVec 16) : Target :=
  if idx.toNat < c.count.toNat then .one idx.toNat
  else if idx.toNat = c.count.toNat then .all
  else .none

/-- `color_of` (R127): COLOR_TABLE's entry, or black. -/
def colorOf (c : Config) (col : BitVec 8) : BitVec 24 := (c.colorTable.lookup col).getD 0x000000#24

/-- `r = c24[23:16]` (R128). -/
def redOf (c24 : BitVec 24) : BitVec 8 := c24.extractLsb' 16 8

/-- `g = c24[15:8]` (R128). -/
def greenOf (c24 : BitVec 24) : BitVec 8 := c24.extractLsb' 8 8

/-- `b = c24[7:0]` (R128). -/
def blueOf (c24 : BitVec 24) : BitVec 8 := c24.extractLsb' 0 8

/-- `scale` (R126): the upper byte of the 16-bit product below brightness 255, the channel itself at 255. -/
def scale (c br : BitVec 8) : BitVec 8 :=
  if br.toNat < 255 then BitVec.ofNat 8 ((c.toNat * br.toNat) >>> 8) else c

/-- `cap == inf or n < cap` (R91). -/
def Cap.room (cap : Cap) (n : Nat) : Bool :=
  match cap with
  | .inf => true
  | .bounded k => decide (n < k)

/-- `cap == inf or n <= cap` (R15, R109). -/
def Cap.allows (cap : Cap) (n : Nat) : Bool :=
  match cap with
  | .inf => true
  | .bounded k => decide (n ≤ k)

/-- CFG_ACC_CAP's field: 0 for `inf`, else the capacity, saturating (R35). -/
def Cap.field (cap : Cap) : BitVec 32 :=
  match cap with
  | .inf => 0#32
  | .bounded k => BitVec.ofNat 32 (min k (2 ^ 32 - 1))

end Sys2Proof.Machine
end

