-- ==== Sys2Proof/Machine/Ops.lean ====
section
/-!
DEFINITION. The named operations every command is written with (00_scope.md R11): completing and rejecting,
the response, the pixel buffer's bytes, the I2C read, the LED output; and reset.

There is no operation that takes an exception or returns from one: the block has none
(60_exceptions.md R156, R166, R167). What stands in its place is `reject`, which every failure of every
command goes through.
-/
namespace Sys2Proof.Machine

/-! ### Completion (R11, 30_encoding.md R66, R67) -/

/-- `min(n, 2^32 - 1)` (R27, R91, R93, R109, R138). -/
def sat32 (n : Nat) : Nat := min n (2 ^ 32 - 1)

/-- `min(n, 65535)` (R29, R95, R113). -/
def sat16 (n : Nat) : Nat := min n 65535

/-- `complete OUTCOME(value, text)` (R11): the result word is stored modulo 2^32 (R10). -/
def complete (s : State) (o : Code) (value : Nat) (text : Bytes) : Effect :=
  { state := s, response := { outcome := o, value := BitVec.ofNat 32 value, text := text } }

/-- `reject OUTCOME(value)` (R11): as `complete` with no text; it undoes nothing. -/
def reject (s : State) (o : Code) (value : Nat) : Effect := complete s o value []

/-- The end of the skeleton of R67: `last_outcome <- o; respond (o, v, t)`. -/
def Effect.respond (e : Effect) : State :=
  { e.state with
    lastOutcome := e.response.outcome
    responses := e.state.responses ++ [e.response] }

/-- The skeleton's ILLEGAL branch (R67, R70): no state changes but `last_outcome`. -/
def illegal (s : State) : Effect := reject s .illegal 0

/-! ### The pixel buffer (R46, R59) -/

/-- `MemRead(o, 1)` (R46). -/
def State.memRead (s : State) (o : Nat) : Byte := s.buf.read o

/-- `MemWrite(o, 1, v)` (R46): changes no other byte. -/
def State.memWrite (s : State) (o : Nat) (v : Byte) : State := { s with buf := s.buf.write o v }

/-- The whole buffer in increasing offset order, byte 0 first (R48, R59). -/
def State.bufBytes (s : State) : Bytes := (List.range s.cfg.bufSize).map s.memRead

/-- `EmitLED(buf)` (R59): appends the whole buffer to the LED output history. -/
def State.emitLED (s : State) : State := { s with ledFrames := s.ledFrames ++ [s.bufBytes] }

/-! ### The I2C transport (R58) -/

/-- What the transport returns to the k-th read from now: the script's entry, and past its end the free
value (R58: "any byte string ..., under no law"; log 5). -/
def State.upcoming (s : State) (k : Nat) : Bytes :=
  if k < s.i2cIn.length then s.i2cIn.getD k []
  else Config.i2cDraw (s.freshDraws + (k - s.i2cIn.length))

/-- The bytes `I2CRead(AI_ADDR, n)` gives the block: the transport's, without any excess over `n` (R58). -/
def State.i2cData (s : State) (n : Nat) : Bytes := (s.upcoming 0).take n

/-- The state after `I2CRead(AI_ADDR, n)`: that answer consumed (R56), the read observed (R191). -/
def State.afterI2C (s : State) (n : Nat) : State :=
  { s with
    i2cIn := s.i2cIn.tail
    freshDraws := if s.i2cIn.isEmpty then s.freshDraws + 1 else s.freshDraws
    i2cReads := s.i2cReads ++ [{ addr := s.cfg.aiAddr, count := n, returned := s.i2cData n }] }

/-! ### Reset (70_reset_and_hazards.md R176 to R179, R192) -/

/-- Releasing the reset input: every piece of block state takes its reset value (R177); the parameters
stay (R6); nothing is emitted, read or returned (R178, R179, R192). What lies outside the block, the
host's further inputs, the transport and the observation so far, stays (log 7). -/
def State.resetInput (s : State) : State :=
  { s with
    acc := []
    disc := false
    telemValue := 0#16
    telemValid := false
    slot := .empty
    brightness := 255#8
    buf := []
    lastOutcome := .ok }

/-- Building the block with the parameters `p` and releasing reset (R181): a configuration that breaks R7
is refused and has no runs (R7, 60_exceptions.md R175). -/
def powerOn (p : Params) : Host.Outcome State Fault Refusal :=
  match checkConfig p with
  | .ok c => .next (State.resetWith c)
  | .error _ => .refused .illFormedConfiguration

end Sys2Proof.Machine
end

