-- ==== Sys2Proof/Machine/Ai.lean ====
section
/-!
DEFINITION. The AI-Module Binary Framer and its checksum validator: AI_POLL, AI_TAKE
(41_ai_framer.md R105 to R118).
-/
namespace Sys2Proof.Machine

/-- The sync word of a 4-byte header, big-endian (R106). -/
def headerSync (h : Bytes) : BitVec 16 := h.getD 0 0#8 ++ h.getD 1 0#8

/-- The length field of a 4-byte header, big-endian (R106). -/
def headerLen (h : Bytes) : BitVec 16 := h.getD 2 0#8 ++ h.getD 3 0#8

/-- `XorFold` (R107): the exclusive or of all bytes, 0 for none. -/
def xorFold (s : Bytes) : Byte := s.foldl (· ^^^ ·) 0#8

/-- `checksum_ok` (R107): over the payload only. -/
def checksumOk (payload : Bytes) (ck : Byte) : Bool := xorFold payload == ck

/-- `length_ok` (R108). -/
def lengthOk (c : Config) (len : Nat) : Bool := decide (1 ≤ len ∧ len ≤ c.maxLen.toNat)

/-- Step 6 (R110): a one-byte payload as a status index. -/
def decodeStatus (i : Byte) (s : State) : Effect :=
  if s.cfg.nStatus ≤ i.toNat then reject s .aiBadStatusIndex i.toNat
  else complete { s with slot := .status i } .aiOkStatus i.toNat []

/-- Step 7 (R111): a longer payload as JSON; a text longer than SLOT_CAP is a failure. -/
def decodeJson (payload : Bytes) (len : Nat) (s : State) : Effect :=
  match Config.jsonCanon payload with
  | none => reject s .aiBadJson len
  | some t =>
    if Cap.allows s.cfg.slotCap t.length then complete { s with slot := .json t } .aiOkJson len []
    else reject s .aiBadJson len

/-- Steps 5 to 7 (R109): the checksum, then the payload. -/
def decodeFrame (payload : Bytes) (ck : Byte) (len : Nat) (s : State) : Effect :=
  if !checksumOk payload ck then reject s .aiBadChecksum ((xorFold payload).toNat <<< 8 ||| ck.toNat)
  else if len = 1 then decodeStatus (payload.getD 0 0#8) s
  else decodeJson payload len s

/-- Step 4 (R109): the second read, of `len + 1` bytes. -/
def readBody (len : Nat) (s : State) : Effect :=
  if (s.i2cData (len + 1)).length < len + 1 then
    reject (s.afterI2C (len + 1)) .aiBodyShort (sat32 (s.i2cData (len + 1)).length)
  else
    decodeFrame ((s.i2cData (len + 1)).take len) ((s.i2cData (len + 1)).getD len 0#8) len
      (s.afterI2C (len + 1))

/-- AI_POLL (R109): steps 1 to 7 in order, stopping at the first check that fails
(60_exceptions.md R163). Step 8, the pause, is the end of the command. -/
def aiPoll (s : State) : Effect :=
  if (s.i2cData 4).length < 4 then reject (s.afterI2C 4) .aiHdrShort (s.i2cData 4).length
  else if headerSync (s.i2cData 4) ≠ s.cfg.syncWord then
    reject (s.afterI2C 4) .aiBadSync (headerSync (s.i2cData 4)).toNat
  else if !lengthOk s.cfg (headerLen (s.i2cData 4)).toNat then
    reject (s.afterI2C 4) .aiBadLength (headerLen (s.i2cData 4)).toNat
  else readBody (headerLen (s.i2cData 4)).toNat (s.afterI2C 4)

/-- `STATUS_NAMES[i]` (R110). No index of a reachable slot is outside the table; one that is reads as the
empty string (log 11). -/
def statusText (c : Config) (i : Byte) : Bytes := c.statusNames.getD i.toNat []

/-- AI_TAKE (R113): returns the slot and empties it, in one step (20_memory.md R54). -/
def aiTake (s : State) : Effect :=
  match s.slot with
  | .empty => complete { s with slot := .empty } .ok 0 []
  | .status i => complete { s with slot := .empty } .ok (1 ||| (i.toNat <<< 8)) (statusText s.cfg i)
  | .json t => complete { s with slot := .empty } .ok (2 ||| (sat16 t.length <<< 16)) t

/-- AI_POLL (R109). -/
def execAiPoll (s : State) : Host.Outcome State Fault Refusal := .next (aiPoll s).respond

/-- AI_TAKE (R113). -/
def execAiTake (s : State) : Host.Outcome State Fault Refusal := .next (aiTake s).respond

end Sys2Proof.Machine
end

