-- ==== Sys2Proof/Machine/Registers.lean ====
section
/-!
DEFINITION. The register map that REG_READ reads (10_state.md R24 to R37). Every register is read-only and
32 bits; a bit not listed reads 0 (R24).
-/
namespace Sys2Proof.Machine

/-- 0x00 BRIGHTNESS (R25). -/
def regBrightness (s : State) : BitVec 32 := 0#24 ++ s.brightness

/-- 0x01 TELEM (R26): VALUE in 15:0, VALID in 16. -/
def regTelem (s : State) : BitVec 32 := 0#15 ++ flagBit s.telemValid ++ s.telemValue

/-- 0x02 ACC_LEN (R27). -/
def regAccLen (s : State) : BitVec 32 := BitVec.ofNat 32 (sat32 s.acc.length)

/-- 0x03 SER_FLAGS (R28): DISC in 0, PENDING in 1. -/
def regSerFlags (s : State) : BitVec 32 := 0#30 ++ flagBit (framePending s.acc) ++ flagBit s.disc

/-- 0x04 SLOT_INFO (R29): KIND in 1:0, INDEX in 15:8, TLEN in 31:16. -/
def regSlotInfo (s : State) : BitVec 32 := s.slot.textLen ++ s.slot.index ++ 0#6 ++ s.slot.kind

/-- 0x05 LAST_OUTCOME (R30), before this REG_READ. -/
def regLastOutcome (s : State) : BitVec 32 := 0#24 ++ s.lastOutcome.byte

/-- 0x06 CFG_GEOM (R31): COUNT in 15:0, START in 31:16. -/
def regCfgGeom (s : State) : BitVec 32 := s.cfg.start ++ s.cfg.count

/-- MODE's CFG_BUF code (R32). -/
def modeCode : Mode → BitVec 2
  | .grb => 0#2
  | .rgb => 1#2
  | .rgbw => 2#2

/-- 0x07 CFG_BUF (R32): BUF_PIXELS in 15:0, STRIDE in 19:16, MODE in 21:20. -/
def regCfgBuf (s : State) : BitVec 32 :=
  0#10 ++ modeCode s.cfg.mode ++ BitVec.ofNat 4 s.cfg.stride ++ s.cfg.bufPixels

/-- 0x08 CFG_SYNC (R33): SYNC in 15:0, MAXLEN in 31:16. -/
def regCfgSync (s : State) : BitVec 32 := s.cfg.maxLen ++ s.cfg.syncWord

/-- 0x09 CFG_AI (R34): ADDR in 6:0, NSTATUS in 24:16. -/
def regCfgAi (s : State) : BitVec 32 :=
  0#7 ++ BitVec.ofNat 9 s.cfg.nStatus ++ 0#9 ++ s.cfg.aiAddr

/-- 0x0A CFG_ACC_CAP (R35). -/
def regCfgAccCap (s : State) : BitVec 32 := Cap.field s.cfg.accCap

/-- 0x0B ID (R36): "IOT" and version 1. -/
def regId : BitVec 32 := 0x494F54#24 ++ 0x01#8

/-- HEX_SCOPE's CFG_MISC bit (R37). -/
def hexScopeBit : HexScope → BitVec 1
  | .all6 => 0#1
  | .last2 => 1#1

/-- 0x0C CFG_MISC (R37). -/
def regCfgMisc (s : State) : BitVec 32 := 0#31 ++ hexScopeBit s.cfg.hexScope

/-- `RegValue(reg)` (43_control.md R152); `none` for a reserved number, 0x0D to 0xFF (R24). -/
def regValue (s : State) (reg : BitVec 8) : Option (BitVec 32) :=
  match reg.toNat with
  | 0x00 => some (regBrightness s)
  | 0x01 => some (regTelem s)
  | 0x02 => some (regAccLen s)
  | 0x03 => some (regSerFlags s)
  | 0x04 => some (regSlotInfo s)
  | 0x05 => some (regLastOutcome s)
  | 0x06 => some (regCfgGeom s)
  | 0x07 => some (regCfgBuf s)
  | 0x08 => some (regCfgSync s)
  | 0x09 => some (regCfgAi s)
  | 0x0A => some (regCfgAccCap s)
  | 0x0B => some regId
  | 0x0C => some (regCfgMisc s)
  | _ => none

end Sys2Proof.Machine
end

