-- ==== Sys2Proof/Machine/Control.lean ====
section
/-!
DEFINITION. The control commands NOP and REG_READ (43_control.md R150 to R152).
-/
namespace Sys2Proof.Machine

/-- NOP (R151). -/
def execNop (s : State) : Host.Outcome State Fault Refusal := .next (complete s .ok 0 []).respond

/-- REG_READ (R152): the register's value in the state before this command. -/
def regRead (reg : BitVec 8) (s : State) : Effect :=
  match regValue s reg with
  | some v => complete s .ok v.toNat []
  | none => reject s .illegal 0

/-- REG_READ (R152). -/
def execRegRead (reg : BitVec 8) (s : State) : Host.Outcome State Fault Refusal :=
  .next (regRead reg s).respond

end Sys2Proof.Machine
end

