-- ==== Sys2Proof/Machine/Pixel.lean ====
section
/-!
DEFINITION. The Pixel Buffer Codec: PIX_SET, PIX_SET_RGB, PIX_CLEAR, PIX_BRIGHT, PIX_SHOW, PIX_READ
(42_pixel_codec.md R125 to R144).
-/
namespace Sys2Proof.Machine

/-- `base` of logical pixel `i`: `(START + i) * STRIDE` (R130). -/
def pixelBase (c : Config) (i : Nat) : Nat := (c.start.toNat + i) * c.stride

/-- `place` (R130): the channels of logical pixel `i` in MODE's order; the white byte is 0 (R143). -/
def place (i : Nat) (r g b : BitVec 8) (s : State) : State :=
  match s.cfg.mode with
  | .grb =>
    ((s.memWrite (pixelBase s.cfg i) g).memWrite (pixelBase s.cfg i + 1) r).memWrite
      (pixelBase s.cfg i + 2) b
  | .rgb =>
    ((s.memWrite (pixelBase s.cfg i) r).memWrite (pixelBase s.cfg i + 1) g).memWrite
      (pixelBase s.cfg i + 2) b
  | .rgbw =>
    (((s.memWrite (pixelBase s.cfg i) g).memWrite (pixelBase s.cfg i + 1) r).memWrite
      (pixelBase s.cfg i + 2) b).memWrite (pixelBase s.cfg i + 3) 0#8

/-- `for i in 0 .. n-1: place(i, r, g, b)` (R132). -/
def placeFirst : Nat → BitVec 8 → BitVec 8 → BitVec 8 → State → State
  | 0, _, _, _, s => s
  | n + 1, r, g, b, s => place n r g b (placeFirst n r g b s)

/-- The rule PIX_SET and PIX_SET_RGB share (R132, R133): scale each channel by the current brightness,
then write what the index selects. -/
def pixWrite (idx : BitVec 16) (r g b : BitVec 8) (s : State) : Effect :=
  match target s.cfg idx with
  | .one i =>
    complete (place i (scale r s.brightness) (scale g s.brightness) (scale b s.brightness) s)
      .pixWroteOne i []
  | .all =>
    complete
      (placeFirst s.cfg.count.toNat (scale r s.brightness) (scale g s.brightness)
        (scale b s.brightness) s)
      .pixWroteAll s.cfg.count.toNat []
  | .none => reject s .pixIndexIgnored idx.toNat

/-- PIX_SET (R132): the colour code's triple (R127, R128), then the shared rule. -/
def pixSet (idx : BitVec 16) (col : BitVec 8) (s : State) : Effect :=
  pixWrite idx (redOf (colorOf s.cfg col)) (greenOf (colorOf s.cfg col)) (blueOf (colorOf s.cfg col)) s

/-- `for o in lo .. lo+n-1: MemWrite(o, 1, 0)` (R134). -/
def zeroFrom (lo : Nat) : Nat → State → State
  | 0, s => s
  | n + 1, s => (zeroFrom lo n s).memWrite (lo + n) 0#8

/-- Zeroes the active region, offsets START×STRIDE to (START+COUNT)×STRIDE - 1 (R134). -/
def zeroActive (s : State) : State :=
  zeroFrom s.cfg.activeLo (s.cfg.activeHi - s.cfg.activeLo) s

/-- PIX_CLEAR (R134): zeroes the active region, then emits the whole buffer. -/
def pixClear (s : State) : Effect := complete (zeroActive s).emitLED .ok 0 []

/-- PIX_BRIGHT (R136): no byte already in `buf` changes (R135). -/
def pixBright (level : BitVec 8) (s : State) : Effect :=
  complete { s with brightness := level } .ok 0 []

/-- PIX_SHOW (R138). -/
def pixShow (s : State) : Effect := complete s.emitLED .ok (sat32 s.cfg.bufSize) []

/-- PIX_READ (R140): an offset at or past the buffer's end has an outcome of its own. -/
def pixRead (off : BitVec 32) (s : State) : Effect :=
  if s.cfg.bufSize ≤ off.toNat then reject s .pixReadRange 0
  else complete s .ok (s.memRead off.toNat).toNat []

/-- PIX_SET (R132). -/
def execPixSet (idx : BitVec 16) (col : BitVec 8) (s : State) : Host.Outcome State Fault Refusal :=
  .next (pixSet idx col s).respond

/-- PIX_SET_RGB (R133). -/
def execPixSetRgb (idx : BitVec 16) (r g b : BitVec 8) (s : State) :
    Host.Outcome State Fault Refusal :=
  .next (pixWrite idx r g b s).respond

/-- PIX_CLEAR (R134). -/
def execPixClear (s : State) : Host.Outcome State Fault Refusal := .next (pixClear s).respond

/-- PIX_BRIGHT (R136). -/
def execPixBright (level : BitVec 8) (s : State) : Host.Outcome State Fault Refusal :=
  .next (pixBright level s).respond

/-- PIX_SHOW (R138). -/
def execPixShow (s : State) : Host.Outcome State Fault Refusal := .next (pixShow s).respond

/-- PIX_READ (R140). -/
def execPixRead (off : BitVec 32) (s : State) : Host.Outcome State Fault Refusal :=
  .next (pixRead off s).respond

end Sys2Proof.Machine
end

