-- ==== Sys2Proof/Machine/Serial.lean ====
section
/-!
DEFINITION. The Serial Command Framer: SER_FEED, SER_EXTRACT, SER_DRAIN (40_serial_framer.md R85 to R98).
-/
namespace Sys2Proof.Machine

/-- What `decode_body` answers (R87). -/
inductive BodyResult where
  | accept (v : BitVec 8)
  | badTag
  | badLength
  | badHex
  deriving DecidableEq, Repr

/-- The digits of a 7-byte body that HEX_SCOPE checks: `body[1:7]` or `body[5:7]` (R87). -/
def checkedDigits (scope : HexScope) (body : Bytes) : Bytes :=
  match scope with
  | .all6 => (body.take 7).drop 1
  | .last2 => (body.take 7).drop 5

/-- `(hexval(c0) << 4) | hexval(c1)`, the first digit high (20_memory.md R47, R87). -/
def hexPair (c0 c1 : Byte) : BitVec 8 := (hexval c0).getD 0#4 ++ (hexval c1).getD 0#4

/-- `decode_body` (R87): tag, then length, then hex. -/
def decodeBody (scope : HexScope) (body : Bytes) : BodyResult :=
  if body.length = 0 ∨ body.getD 0 0#8 ≠ 0x41#8 then .badTag
  else if body.length ≠ 7 then .badLength
  else if (checkedDigits scope body).any (fun d => (hexval d).isNone) then .badHex
  else .accept (hexPair (body.getD 5 0#8) (body.getD 6 0#8))

/-- `telem` (R88): `round(v × 78.63)`, exact halves up. -/
def telem (v : BitVec 8) : BitVec 16 :=
  BitVec.ofNat 16 ((v.toNat * Config.telemScaleX100 + 50) / 100)

/-- `first_dollar` (R90): the smallest index of a `'$'`, or `none`. -/
def firstDollar (acc : Bytes) : Option Nat := acc.findIdx? (· == dollar)

/-- `trail_start` (R90): one more than the largest index of a `'$'`, or 0 when there is none; that is, the
length less the run of bytes at the end that are not `'$'`. -/
def trailStart (acc : Bytes) : Nat := acc.length - (acc.reverse.takeWhile (· != dollar)).length

/-- SER_FEED (R91): discard mode first, then capacity (60_exceptions.md R161). -/
def serFeed (b : BitVec 8) (s : State) : Effect :=
  if s.disc then
    reject (if b = dollar then { s with disc := false } else s) .serResyncDrop 0
  else if Cap.room s.cfg.accCap s.acc.length then
    complete { s with acc := s.acc ++ [b] } .serAccepted (sat32 (s.acc ++ [b]).length) []
  else
    reject
      { s with
        acc := s.acc.take (trailStart s.acc)
        disc := if b = dollar then s.disc else true }
      .serOverflow (sat32 (s.acc.length - trailStart s.acc))

/-- A frame with raw value `v` accepted: the telemetry update (R89). -/
def acceptTelem (v : BitVec 8) (s : State) : State :=
  { s with telemValue := telem v, telemValid := true }

/-- SER_EXTRACT (R93): removes the first complete frame, then decodes its body. -/
def serExtract (s : State) : Effect :=
  match firstDollar s.acc with
  | none => complete s .serNoFrame 0 []
  | some j =>
    match decodeBody s.cfg.hexScope (s.acc.take j) with
    | .accept v =>
      complete (acceptTelem v { s with acc := s.acc.drop (j + 1) }) .serFrameOk (telem v).toNat []
    | .badTag => reject { s with acc := s.acc.drop (j + 1) } .serBadTag (sat32 (s.acc.take j).length)
    | .badLength =>
      reject { s with acc := s.acc.drop (j + 1) } .serBadLength (sat32 (s.acc.take j).length)
    | .badHex => reject { s with acc := s.acc.drop (j + 1) } .serBadHex (sat32 (s.acc.take j).length)

/-- SER_DRAIN's loop (R95): SER_EXTRACT's body, without its `last_outcome` or response, while a `'$'` is
queued; `n` counts frames removed and `a` frames accepted. Each pass removes a byte, so `acc.length`
passes are enough fuel (Laws/Serial.lean: `drainLoop_no_dollar`). -/
def drainLoop : Nat → State → Nat → Nat → State × Nat × Nat
  | 0, s, n, a => (s, n, a)
  | fuel + 1, s, n, a =>
    match firstDollar s.acc with
    | none => (s, n, a)
    | some _ =>
      drainLoop fuel (serExtract s).state (n + 1)
        (if (serExtract s).response.outcome = .serFrameOk then a + 1 else a)

/-- The state, the frames removed and the frames accepted when the loop ends (R95). -/
def drained (s : State) : State × Nat × Nat := drainLoop s.acc.length s 0 0

/-- SER_DRAIN (R95): `min(n, 65535) | (min(a, 65535) << 16)`. -/
def serDrain (s : State) : Effect :=
  complete (drained s).1 .ok (sat16 (drained s).2.1 ||| (sat16 (drained s).2.2 <<< 16)) []

/-- SER_FEED (R91). -/
def execSerFeed (b : BitVec 8) (s : State) : Host.Outcome State Fault Refusal :=
  .next (serFeed b s).respond

/-- SER_EXTRACT (R93). -/
def execSerExtract (s : State) : Host.Outcome State Fault Refusal := .next (serExtract s).respond

/-- SER_DRAIN (R95). -/
def execSerDrain (s : State) : Host.Outcome State Fault Refusal := .next (serDrain s).respond

end Sys2Proof.Machine
end

