-- ==== Sys2Proof/Machine/Dispatch.lean ====
section
/-!
DEFINITION. One arm per command, each one direct call of its meaning.
-/
namespace Sys2Proof.Machine

def exec (i : Instr) (s : State) : Host.Outcome State Fault Refusal :=
  match i with
  | .nop => Sys2Proof.Machine.execNop s
  | .regRead reg => Sys2Proof.Machine.execRegRead reg s
  | .serFeed b => Sys2Proof.Machine.execSerFeed b s
  | .serExtract => Sys2Proof.Machine.execSerExtract s
  | .serDrain => Sys2Proof.Machine.execSerDrain s
  | .aiPoll => Sys2Proof.Machine.execAiPoll s
  | .aiTake => Sys2Proof.Machine.execAiTake s
  | .pixSet idx col => Sys2Proof.Machine.execPixSet idx col s
  | .pixSetRgb idx r g b => Sys2Proof.Machine.execPixSetRgb idx r g b s
  | .pixClear => Sys2Proof.Machine.execPixClear s
  | .pixBright level => Sys2Proof.Machine.execPixBright level s
  | .pixShow => Sys2Proof.Machine.execPixShow s
  | .pixRead off => Sys2Proof.Machine.execPixRead off s

end Sys2Proof.Machine
end

