-- ==== Sys2Proof/Machine/Fetch.lean ====
section
/-!
DEFINITION. Where the next command comes from: the host's inputs, one per step (20_memory.md R52,
70_reset_and_hazards.md R192). The block fetches nothing from a memory (00_scope.md R2).
-/
namespace Sys2Proof.Machine

/-- The host's next input and the state with it consumed; `none` when the host issues nothing. -/
def nextInput (s : State) : Option (HostInput × State) :=
  match s.inbox with
  | [] => none
  | x :: rest => some (x, { s with inbox := rest })

/-- "Between commands it holds its state unchanged" (60_exceptions.md R174). -/
def idle (s : State) : Host.Outcome State Fault Refusal := .next s

/-- The host asserts and releases the reset input between two commands (R176, R192). -/
def execReset (s : State) : Host.Outcome State Fault Refusal := .next s.resetInput

/-- A word that decodes to ILLEGAL (30_encoding.md R67, R70). -/
def execIllegal (s : State) : Host.Outcome State Fault Refusal := .next (illegal s).respond

/-- The command word of an instruction whose bits are `w`, `nbits` of them, every bit above them 0. -/
def tableWord (nbits w : Nat) : Word := BitVec.ofNat 64 (w % 2 ^ nbits)

/-- The host issues the word `w` next. -/
def State.issue (s : State) (w : Word) : State := { s with inbox := .command w :: s.inbox }

end Sys2Proof.Machine
end

