-- ==== Sys2Proof/Machine/Step.lean ====
section
/-!
DEFINITION. One step: the host's next input, run to completion (20_memory.md R51, 30_encoding.md R67).
-/
namespace Sys2Proof.Machine

/-- Runs one command word (30_encoding.md R67): decoding comes first (60_exceptions.md R160). -/
def execWord (w : Word) (s : State) : Host.Outcome State Fault Refusal :=
  match decode w with
  | .ok i => exec i s
  | .error _ => execIllegal s

/-- One step of the machine: idle when the host issues nothing, else one reset or one command. -/
def step (s : State) : Host.Outcome State Fault Refusal :=
  match nextInput s with
  | none => idle s
  | some (.reset, s') => execReset s'
  | some (.command w, s') => execWord w s'

/-- `s` with that instruction as the host's next input, so that the very next step runs it (log 1). -/
def State.withFetchWord (s : State) (nbits w : Nat) : State := s.issue (tableWord nbits w)

end Sys2Proof.Machine
end

