-- ==== Sys2Proof/Machine/Assembler.lean ====
section
/-!
DEFINITION. The assembler syntax of 30_encoding.md R78 and R79 and the pseudo-commands of R80 and R81:
from source text to command words, and back. What the spec leaves open of the text (white space, where an
escape may stand) is log 14.
-/
namespace Sys2Proof.Machine

/-! ### From an assembler line to command words -/

/-- A numeric operand's value in a field of `width` bits, refused when it does not fit (R79). -/
def fieldOperand (width : Nat) : Operand → Option (BitVec width)
  | .num n => toField width n
  | .chr ch => toField width ch.toNat
  | .all => none
  | .str _ => none

/-- An index operand: as a field of 16 bits, or `ALL`, which stands for COUNT (R79). -/
def indexOperand (c : Config) : Operand → Option (BitVec 16)
  | .num n => toField 16 n
  | .chr ch => toField 16 ch.toNat
  | .all => some c.count
  | .str _ => none

/-- The command words of one byte string: a SER_FEED for each byte, in order (R81). -/
def feedWords (s : Bytes) : List Word := s.map fun b => encode (.serFeed b)

/-- One command word. -/
def oneWord (i : Instr) : List Word := [encode i]

/-- The command words a line stands for under the configuration `c`; `none` when the assembler refuses it
(R78 to R81). `.word` is the disassembler's form of a word that decodes to ILLEGAL (R79). -/
def assemble (c : Config) (l : AsmLine) : Option (List Word) :=
  match l.mnemonic, l.operands with
  | "NOP", [] => some (oneWord .nop)
  | "REG_READ", [reg] => (fieldOperand 8 reg).map fun r => oneWord (.regRead r)
  | "SER_FEED", [byte] => (fieldOperand 8 byte).map fun b => oneWord (.serFeed b)
  | "SER_EXTRACT", [] => some (oneWord .serExtract)
  | "SER_DRAIN", [] => some (oneWord .serDrain)
  | "AI_POLL", [] => some (oneWord .aiPoll)
  | "AI_TAKE", [] => some (oneWord .aiTake)
  | "PIX_SET", [idx, col] =>
    (indexOperand c idx).bind fun i => (fieldOperand 8 col).map fun k => oneWord (.pixSet i k)
  | "PIX_SET_RGB", [idx, r, g, b] =>
    (indexOperand c idx).bind fun i => (fieldOperand 8 r).bind fun r' =>
      (fieldOperand 8 g).bind fun g' => (fieldOperand 8 b).map fun b' =>
        oneWord (.pixSetRgb i r' g' b')
  | "PIX_CLEAR", [] => some (oneWord .pixClear)
  | "PIX_BRIGHT", [level] => (fieldOperand 8 level).map fun v => oneWord (.pixBright v)
  | "PIX_SHOW", [] => some (oneWord .pixShow)
  | "PIX_READ", [off] => (fieldOperand 32 off).map fun o => oneWord (.pixRead o)
  | "PIX_SET_ALL", [col] => (fieldOperand 8 col).map fun k => oneWord (.pixSet c.count k)
  | "PIX_SET_ALL_RGB", [r, g, b] =>
    (fieldOperand 8 r).bind fun r' => (fieldOperand 8 g).bind fun g' =>
      (fieldOperand 8 b).map fun b' => oneWord (.pixSetRgb c.count r' g' b')
  | "SER_FEEDS", [.str s] => some (feedWords s)
  | "SER_TICK", [.str s] => some (feedWords s ++ oneWord .serDrain)
  | ".word", [w] => (fieldOperand 64 w).map fun v => [v]
  | _, _ => none

/-! ### From a command word to an assembler line -/

/-- A field as a numeric operand. -/
def numOperand {w : Nat} (v : BitVec w) : Operand := .num v.toNat

/-- The operands of a command, in the order of R69. -/
def operandsOf : Instr → List Operand
  | .nop => []
  | .regRead reg => [numOperand reg]
  | .serFeed b => [numOperand b]
  | .serExtract => []
  | .serDrain => []
  | .aiPoll => []
  | .aiTake => []
  | .pixSet idx col => [numOperand idx, numOperand col]
  | .pixSetRgb idx r g b => [numOperand idx, numOperand r, numOperand g, numOperand b]
  | .pixClear => []
  | .pixBright level => [numOperand level]
  | .pixShow => []
  | .pixRead off => [numOperand off]

/-- The line a disassembler prints for a word: its command, or `.word` when it decodes to ILLEGAL (R79). -/
def disassemble (w : Word) : AsmLine :=
  match decode w with
  | .ok i => { mnemonic := mnemonicOf i, operands := operandsOf i }
  | .error _ => { mnemonic := ".word", operands := [numOperand w] }

/-! ### The text of a line (R78, R79, R81) -/

/-- A hex digit's value, either case. -/
def hexDigitValue (ch : Char) : Option Nat :=
  if 48 ≤ ch.toNat ∧ ch.toNat ≤ 57 then some (ch.toNat - 48)
  else if 65 ≤ ch.toNat ∧ ch.toNat ≤ 70 then some (ch.toNat - 55)
  else if 97 ≤ ch.toNat ∧ ch.toNat ≤ 102 then some (ch.toNat - 87)
  else none

/-- A run of digits in base `base`, most significant first. -/
def digitsValue (base : Nat) (acc : Nat) : List Char → Option Nat
  | [] => some acc
  | ch :: cs =>
    match hexDigitValue ch with
    | some d => if d < base then digitsValue base (acc * base + d) cs else none
    | none => none

/-- A decimal number or a hexadecimal number `0x..` (R79). -/
def numberValue : List Char → Option Nat
  | [] => none
  | '0' :: 'x' :: d :: ds => digitsValue 16 0 (d :: ds)
  | d :: ds => digitsValue 10 0 (d :: ds)

/-- The ASCII code of a character; `none` outside ASCII. -/
def asciiByte (ch : Char) : Option Byte := if ch.toNat < 128 then some (BitVec.ofNat 8 ch.toNat) else none

/-- A lexical element of a line. -/
inductive Token where
  | word (w : List Char)
  | comma
  | chr (c : Byte)
  | str (s : Bytes)
  deriving DecidableEq, Repr

/-- Where the scanner stands in the line; a list of what it has read of an element is newest first. -/
inductive LexMode where
  | between
  | inWord (w : List Char)
  | chrOpen
  | chrClose (c : Byte)
  | inStr (s : Bytes)
  | escX (s : Bytes)
  | escHi (s : Bytes)
  | escLo (s : Bytes) (hi : Nat)
  deriving DecidableEq, Repr

/-- The single quote. -/
def quoteChar : Char := Char.ofNat 39

/-- The double quote. -/
def stringChar : Char := Char.ofNat 34

/-- The backslash. -/
def escapeChar : Char := Char.ofNat 92

/-- Splits a line's text into its elements; `none` when a literal is ill formed. -/
def lex : LexMode → List Char → Option (List Token)
  | .between, [] => some []
  | .between, ch :: cs =>
    if ch = ' ' then lex .between cs
    else if ch = ',' then (lex .between cs).map (Token.comma :: ·)
    else if ch = quoteChar then lex .chrOpen cs
    else if ch = stringChar then lex (.inStr []) cs
    else lex (.inWord [ch]) cs
  | .inWord w, [] => some [.word w.reverse]
  | .inWord w, ch :: cs =>
    if ch = ' ' then (lex .between cs).map (Token.word w.reverse :: ·)
    else if ch = ',' then (lex .between cs).map fun ts => Token.word w.reverse :: Token.comma :: ts
    else if ch = quoteChar ∨ ch = stringChar then none
    else lex (.inWord (ch :: w)) cs
  | .chrOpen, [] => none
  | .chrOpen, ch :: cs =>
    match asciiByte ch with
    | some b => lex (.chrClose b) cs
    | none => none
  | .chrClose _, [] => none
  | .chrClose b, ch :: cs => if ch = quoteChar then (lex .between cs).map (Token.chr b :: ·) else none
  | .inStr _, [] => none
  | .inStr s, ch :: cs =>
    if ch = stringChar then (lex .between cs).map (Token.str s.reverse :: ·)
    else if ch = escapeChar then lex (.escX s) cs
    else match asciiByte ch with
      | some b => lex (.inStr (b :: s)) cs
      | none => none
  | .escX _, [] => none
  | .escX s, ch :: cs => if ch = 'x' then lex (.escHi s) cs else none
  | .escHi _, [] => none
  | .escHi s, ch :: cs =>
    match hexDigitValue ch with
    | some d => lex (.escLo s d) cs
    | none => none
  | .escLo _ _, [] => none
  | .escLo s hi, ch :: cs =>
    match hexDigitValue ch with
    | some d => lex (.inStr (BitVec.ofNat 8 (hi * 16 + d) :: s)) cs
    | none => none

/-- The operand an element stands for (R79). -/
def operandOfToken : Token → Option Operand
  | .word w => if w = ['A', 'L', 'L'] then some .all else (numberValue w).map .num
  | .comma => none
  | .chr c => some (.chr c)
  | .str s => some (.str s)

/-- Operands separated by commas (R78). -/
def operandList : List Token → Option (List Operand)
  | [] => none
  | [t] => (operandOfToken t).map fun o => [o]
  | t :: .comma :: ts => (operandOfToken t).bind fun o => (operandList ts).map fun os => o :: os
  | _ => none

/-- A line of source text: a mnemonic, then its operands separated by commas (R78). -/
def parseLine (text : List Char) : Option AsmLine :=
  match lex .between text with
  | some [.word m] => some { mnemonic := String.ofList m, operands := [] }
  | some (.word m :: t :: ts) =>
    (operandList (t :: ts)).map fun os => { mnemonic := String.ofList m, operands := os }
  | _ => none

/-- The command words of a line of source text. -/
def assembleText (c : Config) (text : List Char) : Option (List Word) :=
  (parseLine text).bind (assemble c)

/-- The sixteen hex digits of a word, most significant first (R79). -/
def hex16 (w : Word) : List Char := (List.range 16).map fun k => Nat.digitChar ((w.toNat >>> (60 - 4 * k)) % 16)

/-- The text of an operand. -/
def operandText : Operand → List Char
  | .num n => Nat.toDigits 10 n
  | .chr c => [quoteChar, Char.ofNat c.toNat, quoteChar]
  | .all => ['A', 'L', 'L']
  | .str s => stringChar :: (s.flatMap fun b =>
      [escapeChar, 'x', Nat.digitChar (b.toNat / 16), Nat.digitChar (b.toNat % 16)]) ++ [stringChar]

/-- The text a disassembler prints for a word (R78, R79). -/
def disassembleText (w : Word) : List Char :=
  match decode w with
  | .error _ => ".word 0x".toList ++ hex16 w
  | .ok i =>
    match operandsOf i with
    | [] => (mnemonicOf i).toList
    | os => (mnemonicOf i).toList ++ [' '] ++ [',', ' '].intercalate (os.map operandText)

end Sys2Proof.Machine
end

