-- ==== Sys2Proof/Machine/Link.lean ====
section
/-!
DEFINITION. The byte link between a host and the block: command words in and responses out, most
significant byte first (30_encoding.md R84, 20_memory.md R48).
-/
namespace Sys2Proof.Machine

/-- The command words of a stream of link bytes, and the bytes of a word not yet complete (R84; log 15). -/
def wordsOfLink : Bytes → List Word × Bytes
  | b7 :: b6 :: b5 :: b4 :: b3 :: b2 :: b1 :: b0 :: rest =>
    (wordOfBytes b7 b6 b5 b4 b3 b2 b1 b0 :: (wordsOfLink rest).1, (wordsOfLink rest).2)
  | part => ([], part)

/-- The link bytes of a run of command words (R84). -/
def linkOfWords (ws : List Word) : Bytes := ws.flatMap wordBytes

/-- Four bytes of a 32-bit value, most significant first (R48). -/
def value32Bytes (v : BitVec 32) : Bytes :=
  [v.extractLsb' 24 8, v.extractLsb' 16 8, v.extractLsb' 8 8, v.extractLsb' 0 8]

/-- A response on the link: outcome, value, length of the text, text (R84). -/
def Response.linkBytes (r : Response) : Bytes :=
  r.outcome.byte :: (value32Bytes r.value ++ value32Bytes (BitVec.ofNat 32 r.text.length) ++ r.text)

/-- A host that sends these link bytes issues their whole command words, after what it issued before. -/
def State.sendLink (s : State) (stream : Bytes) : State :=
  { s with inbox := s.inbox ++ (wordsOfLink stream).1.map .command }

end Sys2Proof.Machine
end

