-- ==== Sys2Proof/Safety.lean ====
section
/-!
DEFINITION. What a safe run is, in the terms the statements use: the invariant of the state, the bounds on
what the block asks of its ports, and the observation of a run (70_reset_and_hazards.md R191).
-/
namespace Sys2Proof.Machine

/-- A step completes: no fault, no refusal (60_exceptions.md R175). -/
def SafeStep (s : State) : Prop := ∃ t, step s = .next t

/-- The slot holds what 10_state.md R19 allows: an index below N_STATUS, a text within SLOT_CAP. -/
def slotAllowed (c : Config) : Slot → Prop
  | .empty => True
  | .status i => i.toNat < c.nStatus
  | .json t => Cap.allows c.slotCap t.length = true

/-- The invariant of the state. -/
structure State.Inv (s : State) : Prop where
  /-- The buffer's list is in its canonical form (log 8). -/
  bufWf : s.buf.wf
  /-- Every listed offset exists (20_memory.md R41, R46). -/
  bufWithin : s.buf.within s.cfg.bufSize
  /-- `len(acc) ≤ ACC_CAP` (10_state.md R15, R16). -/
  accCap : Cap.allows s.cfg.accCap s.acc.length = true
  /-- "When `ACC_CAP = inf` no overflow occurs and `disc` stays 0 forever" (40_serial_framer.md R91). -/
  discBounded : s.cfg.accCap = .inf → s.disc = false
  /-- `telem_value` is the reported value of some raw sample (10_state.md R18). -/
  telemImage : ∃ v, s.telemValue = telem v
  /-- Both telemetry registers are written together (40_serial_framer.md R89). -/
  telemUnset : s.telemValid = false → s.telemValue = 0#16
  /-- 10_state.md R19. -/
  slotOk : slotAllowed s.cfg s.slot

/-- Offsets of the active region (20_memory.md R41). -/
abbrev activeOffset (c : Config) (o : Nat) : Prop := c.activeLo ≤ o ∧ o < c.activeHi

/-- The bytes of one pixel in increasing offset order (42_pixel_codec.md R129). -/
def channelBytes (m : Mode) (r g b : Byte) : Bytes :=
  match m with
  | .grb => [g, r, b]
  | .rgb => [r, g, b]
  | .rgbw => [g, r, b, 0x00#8]

/-- Every byte outside the active region is 0 (20_memory.md R41, 42_pixel_codec.md R139). -/
def State.OutsideDark (s : State) : Prop := ∀ o, ¬activeOffset s.cfg o → s.memRead o = 0#8

/-- In RGBW mode every pixel's fourth byte is 0 (42_pixel_codec.md R143). -/
def State.WhiteDark (s : State) : Prop := s.cfg.mode = .rgbw → ∀ p, s.memRead (4 * p + 3) = 0#8

/-- Every I2C read went to AI_ADDR, asked for a header or for a body of 1 to MAX_LEN bytes and its
checksum, and returned no more than it asked for (20_memory.md R58, 70_reset_and_hazards.md R192). -/
def State.ReadsBounded (s : State) : Prop :=
  ∀ r ∈ s.i2cReads,
    r.addr = s.cfg.aiAddr ∧ (r.count = 4 ∨ 2 ≤ r.count ∧ r.count ≤ 8193) ∧ r.returned.length ≤ r.count

/-- Every LED frame is the whole buffer's length (20_memory.md R59). -/
def State.FramesWhole (s : State) : Prop := ∀ f ∈ s.ledFrames, f.length = s.cfg.bufSize

/-- The commands `is`, each issued after the previous one has completed (20_memory.md R52). -/
def execAll : List Instr → State → Host.Outcome State Fault Refusal
  | [], s => .next s
  | i :: is, s =>
    match exec i s with
    | .next t => execAll is t
    | .fault r => .fault r
    | .refused r => .refused r

/-- The frame bodies of a byte stream: what stands before each `'$'` and after the one before it
(30_encoding.md R73). -/
def bodiesOf : Bytes → List Bytes
  | [] => []
  | b :: bs =>
    if b = dollar then [] :: bodiesOf bs
    else if dollar ∈ bs then
      match bodiesOf bs with
      | [] => []
      | body :: more => (b :: body) :: more
    else []

/-- The state record of 10_state.md R15. -/
structure Record where
  acc : Bytes
  disc : Bool
  telemValue : BitVec 16
  telemValid : Bool
  slot : Slot
  brightness : BitVec 8
  buf : Memory
  lastOutcome : Code
  deriving DecidableEq, Repr

/-- The block's own state, without the model's fields (R15). -/
def State.record (s : State) : Record :=
  { acc := s.acc, disc := s.disc, telemValue := s.telemValue, telemValid := s.telemValid,
    slot := s.slot, brightness := s.brightness, buf := s.buf, lastOutcome := s.lastOutcome }

/-- The observation of a run: its four parts (70_reset_and_hazards.md R191). -/
structure Observation where
  record : Record
  responses : List Response
  i2cReads : List I2CRead
  ledFrames : List Bytes
  deriving DecidableEq, Repr

/-- What a run that has come to `s` shows (R191). -/
def State.observe (s : State) : Observation :=
  { record := s.record, responses := s.responses, i2cReads := s.i2cReads, ledFrames := s.ledFrames }

/-- The start of a run of the command words `ws` under the parameters `c`, with the transport answering
`draws` first (R191). -/
def runStart (c : Config) (ws : List Word) (draws : List Bytes) : State :=
  { State.resetWith c with inbox := ws.map .command, i2cIn := draws }

/-- A run: reset, then every command word in order; what it shows at its end (R191). -/
def runObservation (c : Config) (ws : List Word) (draws : List Bytes) : Option Observation :=
  match Sys2Proof.core.run ws.length (runStart c ws draws) with
  | .next t => some (State.observe t)
  | .fault _ => none
  | .refused _ => none

end Sys2Proof.Machine
end

