-- ==== Sys2Proof/Certificates/Slice0/Obligations.lean ====
section
/-!
DEFINITION. The statements for the provers. Each formalises rules of spec/; its docstring names them. A
statement that rests on an inference the spec marks as derived, or on a choice of the model's log, says so.

Vocabulary first: the end of a command, the layout of a pixel, the families' views of the state.
-/
namespace Sys2Proof.Claims

open Sys2Proof.Machine

/-- `s` after the response `(o, v, t)` (30_encoding.md R67): `last_outcome` is `o`, one response is returned,
and nothing else changes. -/
def answered (s : State) (o : Code) (v : Nat) (t : Bytes) : State :=
  { s with lastOutcome := o, responses := s.responses ++ [⟨o, BitVec.ofNat 32 v, t⟩] }

/-- A channel at a brightness, on naturals (42_pixel_codec.md R126). -/
def dimmed (c br : Byte) : Byte :=
  BitVec.ofNat 8 (if br.toNat < 255 then c.toNat * br.toNat / 256 else c.toNat)

/-- `color_of` on the table's entries (42_pixel_codec.md R127): the first entry for `col`, or black. -/
def tableColour (table : List (Byte × BitVec 24)) (col : Byte) : BitVec 24 :=
  match table.find? (fun e => col == e.1) with
  | some e => e.2
  | none => 0x000000#24

/-- What a pixel write of the unscaled channels `r g b` with index `idx` does to `s` (R130, R131, R133): the
pixel at offset `pixelBase s.cfg idx`, or every pixel of the active region, or nothing; every other byte of
the buffer reads as before, and nothing but the buffer, `last_outcome` and the responses changes. -/
def WritesPixels (s : State) (idx : BitVec 16) (r g b : Byte) (out : Host.Outcome State Fault Refusal) :
    Prop :=
  (idx.toNat < s.cfg.count.toNat →
    ∃ m, out = .next (answered { s with buf := m } .pixWroteOne idx.toNat []) ∧
      ∀ o, Memory.read m o =
        if pixelBase s.cfg idx.toNat ≤ o ∧ o < pixelBase s.cfg idx.toNat + s.cfg.stride then
          (channelBytes s.cfg.mode (dimmed r s.brightness) (dimmed g s.brightness)
            (dimmed b s.brightness)).getD (o - pixelBase s.cfg idx.toNat) 0#8
        else s.memRead o) ∧
  (idx.toNat = s.cfg.count.toNat →
    ∃ m, out = .next (answered { s with buf := m } .pixWroteAll s.cfg.count.toNat []) ∧
      ∀ o, Memory.read m o =
        if activeOffset s.cfg o then
          (channelBytes s.cfg.mode (dimmed r s.brightness) (dimmed g s.brightness)
            (dimmed b s.brightness)).getD (o % s.cfg.stride) 0#8
        else s.memRead o) ∧
  (s.cfg.count.toNat < idx.toNat →
    out = .next (answered s .pixIndexIgnored idx.toNat []))

/-- What a serial command reads and writes of the state (40_serial_framer.md R98). -/
def serialView (s : State) : Bytes × Bool × BitVec 16 × Bool := (s.acc, s.disc, s.telemValue, s.telemValid)

/-- What a pixel command reads and writes of the state (42_pixel_codec.md R144). -/
def pixelView (s : State) : BitVec 8 × Memory := (s.brightness, s.buf)

/-- The transport's future answers and the past reads (20_memory.md R58). -/
def transportView (s : State) : List Bytes × Nat × List I2CRead := (s.i2cIn, s.freshDraws, s.i2cReads)

/-- The commands of the serial framer (30_encoding.md R69). -/
def isSerial (i : Instr) : Prop := i = .serExtract ∨ i = .serDrain ∨ ∃ b, i = .serFeed b

/-- The commands of the AI framer (30_encoding.md R69). -/
def isAi (i : Instr) : Prop := i = .aiPoll ∨ i = .aiTake

/-- The commands of the pixel codec (30_encoding.md R69). -/
def isPixel (i : Instr) : Prop :=
  i = .pixClear ∨ i = .pixShow ∨ (∃ level, i = .pixBright level) ∨ (∃ off, i = .pixRead off) ∨
    (∃ idx col, i = .pixSet idx col) ∨ ∃ idx r g b, i = .pixSetRgb idx r g b

/-- The two outcomes returned the same response. -/
def sameResponse (s t s' t' : State) : Prop :=
  ∃ r, t.responses = s.responses ++ [r] ∧ t'.responses = s'.responses ++ [r]

/-- The raw samples of the bodies that are accepted, oldest first (40_serial_framer.md R87). -/
def acceptedSamples (scope : HexScope) (bodies : List Bytes) : List (BitVec 8) :=
  bodies.filterMap fun body =>
    match decodeBody scope body with
    | .accept v => some v
    | .badTag => none
    | .badLength => none
    | .badHex => none

/-- The telemetry registers after the accepted samples `vs`, in order (R89, R94). -/
def telemAfter (vs : List (BitVec 8)) (old : BitVec 16 × Bool) : BitVec 16 × Bool :=
  match vs.getLast? with
  | some v => (telem v, true)
  | none => old

/-- The accumulator that holds the frames `bodies` and then the fragment `tail`. -/
def accOf (bodies : List Bytes) (tail : Bytes) : Bytes := (bodies.flatMap fun b => b ++ [dollar]) ++ tail

end Sys2Proof.Claims

open Sys2Proof Sys2Proof.Machine Sys2Proof.Claims

/-! ### Encoding -/

/-- Decode and encode agree in both directions: a word decodes to a command exactly when it is that command's
word (30_encoding.md R62 to R69; derived). -/
def Obligations.DecodeExactlyInvertsEncode : Prop :=
  ∀ (w : Word) (i : Instr), decode w = .ok i ↔ encode i = w

/-- R68: a word decodes to the row of opcode_table.json with `(w & mask) == match`, its operands being those
the word encodes; no row matches where it decodes to ILLEGAL; at most one row matches. -/
def Obligations.DecodeAgreesWithOpcodeTable : Prop :=
  ∀ w : Word,
    (∀ i, decode w = .ok i → ∃ row ∈ opcodeTable, row.mnemonic = mnemonicOf i ∧
      w &&& row.mask = row.matchBits) ∧
    (∀ row ∈ opcodeTable, w &&& row.mask = row.matchBits →
      ∃ i, decode w = .ok i ∧ mnemonicOf i = row.mnemonic ∧ encode i = w) ∧
    (∀ r₁ ∈ opcodeTable, ∀ r₂ ∈ opcodeTable, w &&& r₁.mask = r₁.matchBits →
      w &&& r₂.mask = r₂.matchBits → r₁ = r₂)

/-- The worked encodings of 30_encoding.md R82 (the spec's own derivation). -/
def Obligations.WorkedEncodingsDecode : Prop :=
  decode 0x0000000000000000#64 = .ok .nop ∧
  decode 0x0100000000000001#64 = .ok (.regRead 0x01#8) ∧
  decode 0x1000000000000041#64 = .ok (.serFeed 0x41#8) ∧
  decode 0x1000000000000024#64 = .ok (.serFeed 0x24#8) ∧
  decode 0x1100000000000000#64 = .ok .serExtract ∧
  decode 0x1200000000000000#64 = .ok .serDrain ∧
  decode 0x2000000000000000#64 = .ok .aiPoll ∧
  decode 0x2100000000000000#64 = .ok .aiTake ∧
  decode 0x3000000200000005#64 = .ok (.pixSet 2#16 5#8) ∧
  decode 0x3100000100FF8000#64 = .ok (.pixSetRgb 1#16 255#8 128#8 0#8) ∧
  decode 0x3200000000000000#64 = .ok .pixClear ∧
  decode 0x3300000000000080#64 = .ok (.pixBright 128#8) ∧
  decode 0x3400000000000000#64 = .ok .pixShow ∧
  decode 0x3500000000000007#64 = .ok (.pixRead 7#32) ∧
  decode 0x1300000000000000#64 = .error (.unassignedOpcode 0x13#8) ∧
  decode 0x1000000000000141#64 = .error (.reservedBit 0x10#8)

/-- Bytes over the link and words agree: a word is sent as eight bytes, most significant first, before the
words after it; the words sent are the words received, the bytes of an incomplete word wait; and a response is its outcome, its value and text length most significant byte first, its text
(R84, 20_memory.md R48; what an incomplete word does is the model's choice, log 15). -/
def Obligations.ByteLinkCarriesWordsAndResponses : Prop :=
  (∀ w : Word, ∃ b7 b6 b5 b4 b3 b2 b1 b0 : Byte, wordBytes w = [b7, b6, b5, b4, b3, b2, b1, b0] ∧
    w.toNat = ((((((b7.toNat * 256 + b6.toNat) * 256 + b5.toNat) * 256 + b4.toNat) * 256 +
      b3.toNat) * 256 + b2.toNat) * 256 + b1.toNat) * 256 + b0.toNat) ∧
  linkOfWords [] = [] ∧
  (∀ (w : Word) (ws : List Word), linkOfWords (w :: ws) = wordBytes w ++ linkOfWords ws) ∧
  (∀ (ws : List Word) (part : Bytes), part.length < 8 →
    wordsOfLink (linkOfWords ws ++ part) = (ws, part)) ∧
  (∀ r : Response, ∃ v3 v2 v1 v0 n3 n2 n1 n0 : Byte,
    r.linkBytes = [r.outcome.byte, v3, v2, v1, v0, n3, n2, n1, n0] ++ r.text ∧
    r.value.toNat = ((v3.toNat * 256 + v2.toNat) * 256 + v1.toNat) * 256 + v0.toNat ∧
    r.text.length % 2 ^ 32 = ((n3.toNat * 256 + n2.toNat) * 256 + n1.toNat) * 256 + n0.toNat)

/-- An assembler reads back every word a disassembler prints, ILLEGAL words as `.word` (R78, R79; that the
assembler accepts `.word` is the model's choice, log 14). -/
def Obligations.AssemblerReadsBackDisassembly : Prop :=
  ∀ (c : Config) (w : Word), assemble c (disassemble w) = some [w]

/-- The pseudo-commands' expansions (R80, R81), and that an operand that does not fit its field is refused,
whatever stands beside it (R79): IMM8, COL8, R8, G8, B8 at 256 and above, IDX16 at 65536 and above, OFF32 at
2^32 and above, in commands and pseudo-commands. -/
def Obligations.PseudoCommandsExpand : Prop :=
  ∀ c : Config,
    (∀ (col r g b : Byte) (s : Bytes),
      assemble c ⟨"PIX_SET_ALL", [.num col.toNat]⟩ = some [encode (.pixSet c.count col)] ∧
      assemble c ⟨"PIX_SET", [.all, .num col.toNat]⟩ = some [encode (.pixSet c.count col)] ∧
      assemble c ⟨"PIX_SET_ALL_RGB", [.num r.toNat, .num g.toNat, .num b.toNat]⟩ =
        some [encode (.pixSetRgb c.count r g b)] ∧
      assemble c ⟨"SER_FEEDS", [.str s]⟩ = some (s.map fun x => encode (.serFeed x)) ∧
      assemble c ⟨"SER_TICK", [.str s]⟩ =
        some ((s.map fun x => encode (.serFeed x)) ++ [encode .serDrain])) ∧
    ∀ (n : Nat) (x y z : Operand),
      (256 ≤ n →
        assemble c ⟨"REG_READ", [.num n]⟩ = none ∧
        assemble c ⟨"SER_FEED", [.num n]⟩ = none ∧
        assemble c ⟨"PIX_BRIGHT", [.num n]⟩ = none ∧
        assemble c ⟨"PIX_SET", [x, .num n]⟩ = none ∧
        assemble c ⟨"PIX_SET_RGB", [x, .num n, y, z]⟩ = none ∧
        assemble c ⟨"PIX_SET_RGB", [x, y, .num n, z]⟩ = none ∧
        assemble c ⟨"PIX_SET_RGB", [x, y, z, .num n]⟩ = none ∧
        assemble c ⟨"PIX_SET_ALL", [.num n]⟩ = none ∧
        assemble c ⟨"PIX_SET_ALL_RGB", [.num n, x, y]⟩ = none ∧
        assemble c ⟨"PIX_SET_ALL_RGB", [x, .num n, y]⟩ = none ∧
        assemble c ⟨"PIX_SET_ALL_RGB", [x, y, .num n]⟩ = none) ∧
      (65536 ≤ n →
        assemble c ⟨"PIX_SET", [.num n, x]⟩ = none ∧
        assemble c ⟨"PIX_SET_RGB", [.num n, x, y, z]⟩ = none) ∧
      (2 ^ 32 ≤ n → assemble c ⟨"PIX_READ", [.num n]⟩ = none)

/-! ### The step -/

/-- The host's next word, decoded to a command, is run whole: the word is consumed and the step is that
command's meaning; the word the interface places is run next (R67, log 1). -/
def Obligations.StepRunsTheDecodedCommand : Prop :=
  (∀ (s : State) (w : Word) (rest : List HostInput) (i : Instr),
    s.inbox = .command w :: rest → decode w = .ok i → step s = exec i { s with inbox := rest }) ∧
  (∀ (s : State) (i : Instr), step (s.withFetchWord 64 (encode i).toNat) = exec i s ∧
    decodeTableWord 64 (encode i).toNat = some i)

/-- R70: a word that is no command's changes no state except `last_outcome`, which becomes 0x01, and returns
`(0x01, 0, [])`. -/
def Obligations.IllegalWordOnlyRecordsItsOutcome : Prop :=
  Code.illegal.byte = 0x01#8 ∧
  ∀ (s : State) (w : Word) (rest : List HostInput),
    s.inbox = .command w :: rest → (∀ i, encode i ≠ w) →
      step s = .next (answered { s with inbox := rest } .illegal 0 [])

/-- The reset input between commands: every piece of block state takes its reset value, the parameters stay,
nothing is emitted, read or answered (R176 to R179, R192; that the host's further inputs and the
observation so far stay is the model's choice, log 7). -/
def Obligations.ResetInputRestoresResetState : Prop :=
  ∀ (s : State) (rest : List HostInput), s.inbox = .reset :: rest →
    step s = .next { State.resetWith s.cfg with
      inbox := rest, i2cIn := s.i2cIn, freshDraws := s.freshDraws, responses := s.responses,
      i2cReads := s.i2cReads, ledFrames := s.ledFrames }

/-- Between commands the block holds its state (60_exceptions.md R174; the step that does nothing is the
model's reading of it, log 2). -/
def Obligations.IdleStepHoldsState : Prop :=
  ∀ s : State, s.inbox = [] → step s = .next s

/-- Every step completes, and so does every command in every state (60_exceptions.md R156, R175). -/
def Obligations.EveryStepCompletes : Prop :=
  (∀ s : State, SafeStep s) ∧ ∀ (i : Instr) (s : State), ∃ t, exec i s = .next t

/-- Commands run in issue order, each completely before the next: a run of the words of `is` is their
meanings one after another (20_memory.md R51, R52; derived). -/
def Obligations.CommandsRunInIssueOrder : Prop :=
  ∀ (is : List Instr) (s : State), s.inbox = is.map (fun i => .command (encode i)) →
    Sys2Proof.core.run is.length s = execAll is { s with inbox := [] }

/-- Every command appends one response and writes its outcome to `last_outcome`; only AI_TAKE returns text
(10_state.md R22, 30_encoding.md R66, R67). -/
def Obligations.EveryCommandRecordsItsOutcome : Prop :=
  ∀ (i : Instr) (s : State), ∃ t r, exec i s = .next t ∧ t.responses = s.responses ++ [r] ∧
    t.lastOutcome = r.outcome ∧ (i ≠ .aiTake → r.text = [])

/-- The numbers of the outcome codes (60_exceptions.md R157), no two alike. -/
def Obligations.OutcomeCodeNumbers : Prop :=
  (∀ c d : Code, c.byte = d.byte → c = d) ∧
  ([Code.ok, .illegal, .serAccepted, .serOverflow, .serResyncDrop, .serNoFrame, .serFrameOk, .serBadTag,
    .serBadLength, .serBadHex, .aiOkStatus, .aiOkJson, .aiHdrShort, .aiBadSync, .aiBadLength,
    .aiBodyShort, .aiBadChecksum, .aiBadStatusIndex, .aiBadJson, .pixWroteOne, .pixWroteAll,
    .pixIndexIgnored, .pixReadRange].map fun c => c.byte.toNat) =
  [0x00, 0x01, 0x10, 0x11, 0x12, 0x13, 0x14, 0x15, 0x16, 0x17, 0x20, 0x21, 0x22, 0x23, 0x24, 0x25, 0x26,
    0x27, 0x28, 0x30, 0x31, 0x32, 0x33]

/-! ### Configuration and reset -/

/-- R7: a configuration that meets the six conditions starts at its reset state; any other is refused. -/
def Obligations.IllFormedConfigurationHasNoRuns : Prop :=
  ∀ p : Params,
    (((∀ n, p.accCap = .bounded n → 8 ≤ n) ∧ p.start.toNat + p.count.toNat ≤ p.bufPixels.toNat ∧
        p.bufPixels.toNat * (if p.mode = .rgbw then 4 else 3) ≤ 2 ^ 32 ∧ p.count.toNat ≤ 65535 ∧
        p.statusNames.length ≤ 256 ∧ p.maxLen.toNat = 8192) →
      ∃ c : Config, c.toParams = p ∧ powerOn p = .next (State.resetWith c)) ∧
    (¬((∀ n, p.accCap = .bounded n → 8 ≤ n) ∧ p.start.toNat + p.count.toNat ≤ p.bufPixels.toNat ∧
        p.bufPixels.toNat * (if p.mode = .rgbw then 4 else 3) ≤ 2 ^ 32 ∧ p.count.toNat ≤ 65535 ∧
        p.statusNames.length ≤ 256 ∧ p.maxLen.toNat = 8192) →
      powerOn p = .refused .illFormedConfiguration)

/-- No command writes a parameter, and no step changes one (00_scope.md R6); that a step which is the reset
input keeps them too is the model's reading of R192 (DEDUCED, log 7). -/
def Obligations.NoStepChangesParameters : Prop :=
  (∀ (i : Instr) (s t : State), exec i s = .next t → t.cfg = s.cfg) ∧
  ∀ s t : State, step s = .next t → t.cfg = s.cfg

/-- R177: the reset values, of the machine right after reset under every configuration; registers 0x06 to
0x0C read the parameters. -/
def Obligations.ResetValues : Prop :=
  ∀ s : State, (s = State.reset ∨ ∃ c : Config, s = State.resetWith c) →
    s.acc = [] ∧ s.disc = false ∧ s.telemValue = 0#16 ∧ s.telemValid = false ∧ s.slot = .empty ∧
    s.brightness = 255#8 ∧ (∀ o, s.memRead o = 0#8) ∧ s.lastOutcome.byte = 0x00#8 ∧
    regValue s 0x06#8 = some (s.cfg.start ++ s.cfg.count) ∧
    regValue s 0x07#8 =
      some (0#10 ++ (if s.cfg.mode = .grb then 0#2 else if s.cfg.mode = .rgb then 1#2 else 2#2) ++
        (if s.cfg.mode = .rgbw then 4#4 else 3#4) ++ s.cfg.bufPixels) ∧
    regValue s 0x08#8 = some (0x2000#16 ++ s.cfg.syncWord) ∧
    regValue s 0x09#8 =
      some (0#7 ++ BitVec.ofNat 9 s.cfg.statusNames.length ++ 0#9 ++ s.cfg.aiAddr) ∧
    regValue s 0x0A#8 =
      some (match s.cfg.accCap with
        | .inf => 0#32
        | .bounded n => BitVec.ofNat 32 (min n (2 ^ 32 - 1))) ∧
    regValue s 0x0B#8 = some 0x494F5401#32 ∧
    regValue s 0x0C#8 = some (if s.cfg.hexScope = .last2 then 1#32 else 0#32)

/-- The state after reset meets every invariant below, under every configuration, the chosen one among them
(R177, R21). -/
def Obligations.ResetStateMeetsInvariants : Prop :=
  (∀ c : Config, (State.resetWith c).Inv ∧ (State.resetWith c).OutsideDark ∧
    (State.resetWith c).WhiteDark ∧ (State.resetWith c).ReadsBounded ∧
    (State.resetWith c).FramesWhole) ∧
  State.reset.Inv

/-! ### Invariants -/

/-- Every step keeps the invariant: the buffer in canonical form and inside its length, `acc` within ACC_CAP,
no discard mode without a cap, telemetry the image of a sample, the slot as R19 allows. -/
def Obligations.StepKeepsInvariant : Prop :=
  ∀ s t : State, s.Inv → step s = .next t → t.Inv

/-- No command changes a byte outside the active region: each such byte reads after any command as it read
before (20_memory.md R41, 42_pixel_codec.md R139; derived). -/
def Obligations.NoCommandWritesOutsideActiveRegion : Prop :=
  ∀ (i : Instr) (s : State), s.buf.wf → ∃ t, exec i s = .next t ∧
    ∀ o, ¬activeOffset s.cfg o → t.memRead o = s.memRead o

/-- Every step keeps the bytes outside the active region 0, and in RGBW mode every white byte 0
(42_pixel_codec.md R139, R143; derived). -/
def Obligations.StepKeepsUnwrittenBytesDark : Prop :=
  ∀ s t : State, s.Inv → step s = .next t →
    (s.OutsideDark → t.OutsideDark) ∧ (s.WhiteDark → t.WhiteDark)

/-- Every step keeps the bounds of the ports: I2C reads to AI_ADDR only, of 4 or of at most 8193 bytes, and
LED frames of the whole buffer (20_memory.md R58, R59, 70_reset_and_hazards.md R192). -/
def Obligations.StepKeepsPortBounds : Prop :=
  ∀ s t : State, step s = .next t →
    (s.ReadsBounded → t.ReadsBounded) ∧ (s.FramesWhole → t.FramesWhole)

/-! ### Independence of the families -/

/-- R98 (derived): a serial command leaves the slot, the codec and the ports alone, and what it does to the
serial state and returns depends on the serial state and the parameters alone. -/
def Obligations.SerialCommandsAreIndependent : Prop :=
  ∀ (i : Instr) (s : State), isSerial i → ∃ t, exec i s = .next t ∧
    t.slot = s.slot ∧ pixelView t = pixelView s ∧ transportView t = transportView s ∧
    t.ledFrames = s.ledFrames ∧ t.inbox = s.inbox ∧
    ∀ s', s'.cfg = s.cfg → serialView s' = serialView s → ∃ t', exec i s' = .next t' ∧
      serialView t' = serialView t ∧ sameResponse s t s' t'

/-- R118 (derived): an AI command leaves the serial framer, the codec and the LED port alone, and what it does
to the slot and returns depends on the slot, the transport and the parameters alone. -/
def Obligations.AiCommandsAreIndependent : Prop :=
  ∀ (i : Instr) (s : State), isAi i → ∃ t, exec i s = .next t ∧
    serialView t = serialView s ∧ pixelView t = pixelView s ∧ t.ledFrames = s.ledFrames ∧
    t.inbox = s.inbox ∧
    ∀ s', s'.cfg = s.cfg → s'.slot = s.slot → transportView s' = transportView s →
      ∃ t', exec i s' = .next t' ∧ t'.slot = t.slot ∧ transportView t' = transportView t ∧
        sameResponse s t s' t'

/-- R144 (derived): a codec command leaves the serial framer, the slot and the transport alone, and what it
does to the codec's state, emits and returns depends on that state and the parameters alone. -/
def Obligations.PixelCommandsAreIndependent : Prop :=
  ∀ (i : Instr) (s : State), isPixel i → ∃ t, exec i s = .next t ∧
    serialView t = serialView s ∧ t.slot = s.slot ∧ transportView t = transportView s ∧
    t.inbox = s.inbox ∧
    ∀ s', s'.cfg = s.cfg → pixelView s' = pixelView s → s'.ledFrames = s.ledFrames →
      ∃ t', exec i s' = .next t' ∧ pixelView t' = pixelView t ∧ t'.ledFrames = t.ledFrames ∧
        sameResponse s t s' t'

/-! ### Control -/

/-- R151: NOP does nothing, is the all-zero word, and is no other word of its OPCODE. -/
def Obligations.NopDoesNothing : Prop :=
  (∀ s : State, exec .nop s = .next (answered s .ok 0 [])) ∧ encode .nop = 0#64 ∧
  ∀ w : Word, w.extractLsb' 56 8 = 0#8 → w ≠ 0#64 → ∀ i, decode w ≠ .ok i

/-- R152: REG_READ of a defined number returns the register's value in the state before it, of any other
ILLEGAL and 0; neither changes any state but `last_outcome`. -/
def Obligations.RegReadReturnsTheRegister : Prop :=
  ∀ (reg : BitVec 8) (s : State), encode (.regRead reg) = 0x01#8 ++ 0#48 ++ reg ∧
    (reg.toNat ≤ 0x0C → ∃ v, regValue s reg = some v ∧
      exec (.regRead reg) s = .next (answered s .ok v.toNat [])) ∧
    (0x0C < reg.toNat → exec (.regRead reg) s = .next (answered s .illegal 0 []))

/-- The fields of registers 0x00 to 0x05 in every state (10_state.md R25 to R30); registers 0x06 to 0x0C are
constant: they read in every state as they read after reset (R31 to R37). -/
def Obligations.RegisterFields : Prop :=
  ∀ s : State,
    regValue s 0x00#8 = some (BitVec.ofNat 32 s.brightness.toNat) ∧
    regValue s 0x01#8 =
      some (BitVec.ofNat 32 (s.telemValue.toNat + (if s.telemValid then 2 ^ 16 else 0))) ∧
    regValue s 0x02#8 = some (BitVec.ofNat 32 (min s.acc.length (2 ^ 32 - 1))) ∧
    regValue s 0x03#8 =
      some (BitVec.ofNat 32 ((if s.disc then 1 else 0) + (if dollar ∈ s.acc then 2 else 0))) ∧
    regValue s 0x04#8 = some (BitVec.ofNat 32 (match s.slot with
      | .empty => 0
      | .status i => 1 + 2 ^ 8 * i.toNat
      | .json t => 2 + 2 ^ 16 * min t.length 65535)) ∧
    regValue s 0x05#8 = some (BitVec.ofNat 32 s.lastOutcome.byte.toNat) ∧
    ∀ reg : BitVec 8, 0x06 ≤ reg.toNat → reg.toNat ≤ 0x0C →
      regValue s reg = regValue (State.resetWith s.cfg) reg

/-- R56 (derived), as far as it holds: PIX_READ, PIX_SHOW and REG_READ of any register but 0x05 return the same
value twice in a row, and two PIX_SHOW emit the same frame (R138); a second REG_READ 0x05 returns the first's own
outcome, OK (10_state.md R22, R30; log 16). -/
def Obligations.ReadsRepeatTheirValue : Prop :=
  ∀ s : State,
    (∀ i : Instr, (i = .pixShow ∨ (∃ off, i = .pixRead off) ∨ ∃ reg, i = .regRead reg ∧ reg ≠ 0x05#8) →
      ∃ t u r, exec i s = .next t ∧ exec i t = .next u ∧ t.responses = s.responses ++ [r] ∧
        u.responses = s.responses ++ [r, r] ∧ t.buf = s.buf ∧ u.record = t.record) ∧
    (∃ t u f, exec .pixShow s = .next t ∧ exec .pixShow t = .next u ∧
      t.ledFrames = s.ledFrames ++ [f] ∧ u.ledFrames = s.ledFrames ++ [f, f]) ∧
    (∃ t u r, exec (.regRead 0x05#8) s = .next t ∧ exec (.regRead 0x05#8) t = .next u ∧
      t.responses = s.responses ++ [r] ∧ r.value = BitVec.ofNat 32 s.lastOutcome.byte.toNat ∧
      u.responses = s.responses ++ [r, ⟨.ok, 0#32, []⟩])

/-! ### Serial framer -/

/-- R91: SER_FEED, whole: discard mode, then room, then overflow; the trailing fragment is what follows the
last `'$'`. -/
def Obligations.SerFeedCases : Prop :=
  ∀ (b : Byte) (s : State), encode (.serFeed b) = 0x10#8 ++ 0#48 ++ b ∧
    (s.disc = true →
      exec (.serFeed b) s =
        .next (answered { s with disc := if b = dollar then false else true } .serResyncDrop 0 [])) ∧
    (s.disc = false → (∀ n, s.cfg.accCap = .bounded n → s.acc.length < n) →
      exec (.serFeed b) s =
        .next (answered { s with acc := s.acc ++ [b] } .serAccepted
          (min (s.acc.length + 1) (2 ^ 32 - 1)) [])) ∧
    (∀ front fragment, s.disc = false → s.cfg.accCap = .bounded s.acc.length →
      s.acc = front ++ fragment → dollar ∉ fragment → (front = [] ∨ front.getLast? = some dollar) →
      exec (.serFeed b) s =
        .next (answered { s with acc := front, disc := if b = dollar then false else true }
          .serOverflow (min fragment.length (2 ^ 32 - 1)) []))

/-- R86: `hexval`, on every byte. -/
def Obligations.HexDigitTable : Prop :=
  ∀ c : Byte,
    (0x30 ≤ c.toNat → c.toNat ≤ 0x39 → hexval c = some (BitVec.ofNat 4 (c.toNat - 0x30))) ∧
    (0x41 ≤ c.toNat → c.toNat ≤ 0x46 → hexval c = some (BitVec.ofNat 4 (c.toNat - 0x41 + 10))) ∧
    (¬(0x30 ≤ c.toNat ∧ c.toNat ≤ 0x39) → ¬(0x41 ≤ c.toNat ∧ c.toNat ≤ 0x46) → hexval c = none)

/-- R87: `decode_body`, whole, under both scopes. -/
def Obligations.BodyDecoding : Prop :=
  ∀ scope : HexScope,
    decodeBody scope [] = .badTag ∧
    (∀ (c : Byte) (cs : Bytes), c ≠ 0x41#8 → decodeBody scope (c :: cs) = .badTag) ∧
    (∀ cs : Bytes, cs.length ≠ 6 → decodeBody scope (0x41#8 :: cs) = .badLength) ∧
    ∀ d1 d2 d3 d4 d5 d6 : Byte,
      ((hexval d5 = none ∨ hexval d6 = none ∨ scope = .all6 ∧ (hexval d1 = none ∨ hexval d2 = none ∨
          hexval d3 = none ∨ hexval d4 = none)) →
        decodeBody scope [0x41#8, d1, d2, d3, d4, d5, d6] = .badHex) ∧
      (∀ h l : BitVec 4, hexval d5 = some h → hexval d6 = some l →
        (scope = .all6 → hexval d1 ≠ none ∧ hexval d2 ≠ none ∧ hexval d3 ≠ none ∧ hexval d4 ≠ none) →
        decodeBody scope [0x41#8, d1, d2, d3, d4, d5, d6] =
          .accept (BitVec.ofNat 8 (h.toNat * 16 + l.toNat)))

/-- R88: the telemetry value is the exact product rounded half up, at most 20051, and 12974 for 0xA5; exact
halves arise at 50, 150 and 250 only. -/
def Obligations.TelemetryRoundsHalfUp : Prop :=
  (∀ v : Byte, (telem v).toNat = (v.toNat * 7863 + 50) / 100 ∧ (telem v).toNat ≤ 20051 ∧
    (v.toNat * 7863 % 100 = 50 ↔ v = 50#8 ∨ v = 150#8 ∨ v = 250#8)) ∧
  telem 0#8 = 0#16 ∧ telem 255#8 = 20051#16 ∧ telem 50#8 = 3932#16 ∧ telem 150#8 = 11795#16 ∧
  telem 250#8 = 19658#16 ∧ telem 165#8 = 12974#16

/-- R93 and R89: SER_EXTRACT, whole: nothing without a `'$'`, else the first frame removed and its body
decoded; only an accepted body writes the telemetry registers, both of them. -/
def Obligations.SerExtractTakesTheFirstFrame : Prop :=
  ∀ s : State, encode .serExtract = 0x1100000000000000#64 ∧
    (dollar ∉ s.acc → exec .serExtract s = .next (answered s .serNoFrame 0 [])) ∧
    (∀ body rest, s.acc = body ++ dollar :: rest → dollar ∉ body →
      exec .serExtract s = .next (match decodeBody s.cfg.hexScope body with
        | .accept v =>
          answered { s with acc := rest, telemValue := telem v, telemValid := true } .serFrameOk
            (telem v).toNat []
        | .badTag => answered { s with acc := rest } .serBadTag (min body.length (2 ^ 32 - 1)) []
        | .badLength => answered { s with acc := rest } .serBadLength (min body.length (2 ^ 32 - 1)) []
        | .badHex => answered { s with acc := rest } .serBadHex (min body.length (2 ^ 32 - 1)) []))

/-- R95: SER_DRAIN, whole: every queued frame removed, the trailing fragment kept, the telemetry that of the
last accepted frame, the counts saturating; and every accumulator is frames and a fragment. -/
def Obligations.SerDrainTakesEveryFrame : Prop :=
  encode .serDrain = 0x1200000000000000#64 ∧
  (∀ acc : Bytes, ∃ bodies tail, acc = accOf bodies tail ∧ (∀ b ∈ bodies, dollar ∉ b) ∧ dollar ∉ tail) ∧
  ∀ (s : State) (bodies : List Bytes) (tail : Bytes),
    s.acc = accOf bodies tail → (∀ b ∈ bodies, dollar ∉ b) → dollar ∉ tail →
    exec .serDrain s = .next (answered
      { s with
        acc := tail
        telemValue :=
          (telemAfter (acceptedSamples s.cfg.hexScope bodies) (s.telemValue, s.telemValid)).1
        telemValid :=
          (telemAfter (acceptedSamples s.cfg.hexScope bodies) (s.telemValue, s.telemValid)).2 }
      .ok
      (min bodies.length 65535 +
        2 ^ 16 * min (acceptedSamples s.cfg.hexScope bodies).length 65535) [])

/-- R96 (derived): chunk-boundary independence. With no cap, feeding a stream with any SER_EXTRACTs and
SER_DRAINs between and then draining ends in the same serial state as feeding it whole and draining. -/
def Obligations.ChunkBoundariesDoNotMatter : Prop :=
  ∀ (is : List Instr) (stream : Bytes) (s : State),
    s.cfg.accCap = .inf → s.disc = false → (∀ i ∈ is, isSerial i) →
    stream = (is.filterMap fun i => match i with
      | .serFeed b => some b
      | _ => none) →
    ∃ t u, execAll (is ++ [.serDrain]) s = .next t ∧
      execAll ((stream.map fun b => .serFeed b) ++ [.serDrain]) s = .next u ∧
      serialView t = serialView u

/-- R92 (derived), for a stream fed from an empty accumulator without an extraction: the bodies queued are the
stream's own bodies with some left out, so an overflow never makes or shortens a frame. -/
def Obligations.OverflowNeverMakesAFrame : Prop :=
  ∀ (stream : Bytes) (s : State), s.acc = [] → s.disc = false →
    ∃ t, execAll (stream.map fun b => .serFeed b) s = .next t ∧
      (bodiesOf t.acc).Sublist (bodiesOf stream)

/-! ### AI framer -/

/-- R107: the exclusive or of the payload's bytes, from 0, and nothing else. -/
def Obligations.ChecksumIsXorOfPayload : Prop :=
  xorFold [] = 0x00#8 ∧ (∀ (b : Byte) (bs : Bytes), xorFold (b :: bs) = b ^^^ xorFold bs) ∧
  ∀ (payload : Bytes) (ck : Byte), checksumOk payload ck = true ↔ xorFold payload = ck

/-- R109: AI_POLL, whole, for every answer of the transport: the header read, sync, length, the body read,
checksum, then the status index or the JSON text; the slot is written on success only. The form of the
transport's answers is the model's (log 5). -/
def Obligations.AiPollRunsItsSteps : Prop :=
  ∀ s : State, encode .aiPoll = 0x2000000000000000#64 ∧
    ((s.upcoming 0).length < 4 →
      exec .aiPoll s = .next (answered (s.afterI2C 4) .aiHdrShort (s.upcoming 0).length [])) ∧
    ∀ (h0 h1 h2 h3 : Byte) (excess : Bytes), s.upcoming 0 = h0 :: h1 :: h2 :: h3 :: excess →
      ∀ sync len : Nat, sync = h0.toNat * 256 + h1.toNat → len = h2.toNat * 256 + h3.toNat →
      (sync ≠ s.cfg.syncWord.toNat →
        exec .aiPoll s = .next (answered (s.afterI2C 4) .aiBadSync sync [])) ∧
      (sync = s.cfg.syncWord.toNat → (len = 0 ∨ 8192 < len) →
        exec .aiPoll s = .next (answered (s.afterI2C 4) .aiBadLength len [])) ∧
      (sync = s.cfg.syncWord.toNat → 1 ≤ len → len ≤ 8192 → (s.upcoming 1).length < len + 1 →
        exec .aiPoll s =
          .next (answered ((s.afterI2C 4).afterI2C (len + 1)) .aiBodyShort (s.upcoming 1).length [])) ∧
      ∀ (payload : Bytes) (ck : Byte) (more : Bytes), sync = s.cfg.syncWord.toNat → 1 ≤ len → len ≤ 8192 →
        payload.length = len → s.upcoming 1 = payload ++ ck :: more →
        ∀ s₂ : State, s₂ = (s.afterI2C 4).afterI2C (len + 1) →
        (xorFold payload ≠ ck →
          exec .aiPoll s =
            .next (answered s₂ .aiBadChecksum ((xorFold payload).toNat * 256 + ck.toNat) [])) ∧
        (xorFold payload = ck → ∀ i : Byte, payload = [i] →
          exec .aiPoll s = .next (if i.toNat < s.cfg.statusNames.length then
            answered { s₂ with slot := .status i } .aiOkStatus i.toNat []
            else answered s₂ .aiBadStatusIndex i.toNat [])) ∧
        (xorFold payload = ck → 1 < len →
          exec .aiPoll s = .next (match Config.jsonCanon payload with
            | none => answered s₂ .aiBadJson len []
            | some t => if Cap.allows s.cfg.slotCap t.length then
                answered { s₂ with slot := .json t } .aiOkJson len []
                else answered s₂ .aiBadJson len []))

/-- What a transport read does to the model's ports: the answer given is consumed and the read is observed
with its address, count and at most that many bytes; the next answers move up (20_memory.md R58, R191;
the form of the transport is the model's, log 5). -/
def Obligations.TransportReadConsumesOneAnswer : Prop :=
  ∀ (s : State) (n k : Nat),
    (s.afterI2C n).upcoming k = s.upcoming (k + 1) ∧
    (s.afterI2C n).i2cReads = s.i2cReads ++ [⟨s.cfg.aiAddr, n, (s.upcoming 0).take n⟩] ∧
    (s.afterI2C n).record = s.record ∧ (s.afterI2C n).responses = s.responses ∧
    (s.afterI2C n).ledFrames = s.ledFrames

/-- R114 (derived): flipping any single bit of the payload or of the checksum byte of a valid frame makes
AI_POLL reject it as AI_BAD_CHECKSUM, with the slot as it was. -/
def Obligations.SingleBitCorruptionIsRejected : Prop :=
  ∀ (s : State) (h0 h1 h2 h3 : Byte) (payload : Bytes) (j k : Nat),
    s.upcoming 0 = [h0, h1, h2, h3] → h0 ++ h1 = s.cfg.syncWord →
    1 ≤ payload.length → payload.length ≤ 8192 → payload.length = h2.toNat * 256 + h3.toNat →
    j ≤ payload.length → k < 8 →
    s.upcoming 1 = (payload ++ [xorFold payload]).modify j (fun b => b ^^^ BitVec.ofNat 8 (2 ^ k)) →
    ∃ t, exec .aiPoll s = .next t ∧ t.lastOutcome = .aiBadChecksum ∧ t.slot = s.slot

/-- R113: AI_TAKE returns the slot and empties it; a second AI_TAKE returns kind 0. -/
def Obligations.AiTakeDeliversOnce : Prop :=
  encode .aiTake = 0x2100000000000000#64 ∧
  ∀ s : State,
    (s.slot = .empty → exec .aiTake s = .next (answered s .ok 0 [])) ∧
    (∀ (i : Byte) (name : Bytes), s.slot = .status i → s.cfg.statusNames[i.toNat]? = some name →
      exec .aiTake s = .next (answered { s with slot := .empty } .ok (1 + 256 * i.toNat) name)) ∧
    (∀ t : Bytes, s.slot = .json t →
      exec .aiTake s =
        .next (answered { s with slot := .empty } .ok (2 + 2 ^ 16 * min t.length 65535) t)) ∧
    ∃ t, exec .aiTake s = .next t ∧ t.slot = .empty ∧ exec .aiTake t = .next (answered t .ok 0 [])

/-! ### Pixel codec -/

/-- R126: the brightness scaler. -/
def Obligations.BrightnessScaler : Prop :=
  ∀ c br : Byte,
    (br.toNat < 255 → (scale c br).toNat = c.toNat * br.toNat / 256 ∧ (scale c br).toNat ≤ 253) ∧
    (br = 255#8 → scale c br = c) ∧ scale c 0#8 = 0#8 ∧ scale 255#8 128#8 = 127#8

/-- R133: PIX_SET_RGB, whole, with the channel positions of R129 (general knowledge, log 9). -/
def Obligations.PixSetRgbWritesItsTarget : Prop :=
  ∀ (idx : BitVec 16) (r g b : Byte) (s : State), s.buf.wf →
    encode (.pixSetRgb idx r g b) = 0x31#8 ++ 0#8 ++ idx ++ 0#8 ++ r ++ g ++ b ∧
    WritesPixels s idx r g b (exec (.pixSetRgb idx r g b) s)

/-- R132: PIX_SET, whole, with the colour table's triple split as 0xRRGGBB (R128) and the channel positions of
R129 (both general knowledge, log 9). -/
def Obligations.PixSetWritesTheTableColour : Prop :=
  ∀ (idx : BitVec 16) (col r g b : Byte) (s : State), s.buf.wf →
    tableColour s.cfg.colorTable col = r ++ g ++ b →
    encode (.pixSet idx col) = 0x30#8 ++ 0#8 ++ idx ++ 0#24 ++ col ∧
    WritesPixels s idx r g b (exec (.pixSet idx col) s)

/-- R134: PIX_CLEAR zeroes the active region, keeps every other byte, and emits the whole buffer. -/
def Obligations.PixClearZeroesAndEmits : Prop :=
  ∀ s : State, s.buf.wf → encode .pixClear = 0x3200000000000000#64 ∧
    ∃ m frame, exec .pixClear s =
        .next (answered { s with buf := m, ledFrames := s.ledFrames ++ [frame] } .ok 0 []) ∧
      (∀ o, Memory.read m o = if activeOffset s.cfg o then 0#8 else s.memRead o) ∧
      frame.length = s.cfg.bufSize ∧
      ∀ o, o < s.cfg.bufSize → frame[o]? = some (Memory.read m o)

/-- R136: PIX_BRIGHT writes the brightness and nothing stored (R135). -/
def Obligations.PixBrightSetsBrightnessOnly : Prop :=
  ∀ (level : Byte) (s : State), encode (.pixBright level) = 0x33#8 ++ 0#48 ++ level ∧
    exec (.pixBright level) s = .next (answered { s with brightness := level } .ok 0 [])

/-- R138: PIX_SHOW emits the whole buffer, in increasing offset order, and changes none of it. -/
def Obligations.PixShowEmitsTheBuffer : Prop :=
  ∀ s : State, encode .pixShow = 0x3400000000000000#64 ∧
    ∃ frame, exec .pixShow s = .next (answered { s with ledFrames := s.ledFrames ++ [frame] } .ok
        (min (s.cfg.bufPixels.toNat * s.cfg.stride) (2 ^ 32 - 1)) []) ∧
      frame.length = s.cfg.bufPixels.toNat * s.cfg.stride ∧
      ∀ o, o < s.cfg.bufPixels.toNat * s.cfg.stride → frame[o]? = some (s.memRead o)

/-- R140: PIX_READ returns the byte at its offset, or PIX_READ_RANGE and 0 past the buffer's end. -/
def Obligations.PixReadReturnsTheByte : Prop :=
  ∀ (off : BitVec 32) (s : State), encode (.pixRead off) = 0x35#8 ++ 0#24 ++ off ∧
    (off.toNat < s.cfg.bufPixels.toNat * s.cfg.stride →
      exec (.pixRead off) s = .next (answered s .ok (s.memRead off.toNat).toNat [])) ∧
    (s.cfg.bufPixels.toNat * s.cfg.stride ≤ off.toNat →
      exec (.pixRead off) s = .next (answered s .pixReadRange 0 []))

/-- R137: only PIX_CLEAR and PIX_SHOW emit, each one frame: the buffer it leaves; PIX_SET and PIX_SET_RGB
change the buffer only (and `last_outcome`, with every command). -/
def Obligations.OnlyClearAndShowEmit : Prop :=
  ∀ (i : Instr) (s : State), ∃ t, exec i s = .next t ∧
    (i ≠ .pixClear → i ≠ .pixShow → t.ledFrames = s.ledFrames) ∧
    (i = .pixClear ∨ i = .pixShow →
      t.ledFrames = s.ledFrames ++ [(List.range t.cfg.bufSize).map t.memRead]) ∧
    ((∃ idx col, i = .pixSet idx col) ∨ (∃ idx r g b, i = .pixSetRgb idx r g b) →
      ∃ m o v, t = answered { s with buf := m } o v [])

/-- R141 (derived): after reset, any run of PIX_SET, PIX_SET_RGB, PIX_BRIGHT and PIX_SHOW and then PIX_CLEAR
leaves the buffer as it was at reset. -/
def Obligations.ClearRestoresTheResetBuffer : Prop :=
  ∀ (c : Config) (is : List Instr),
    (∀ i ∈ is, i = .pixShow ∨ (∃ level, i = .pixBright level) ∨ (∃ idx col, i = .pixSet idx col) ∨
      ∃ idx r g b, i = .pixSetRgb idx r g b) →
    ∃ t, execAll (is ++ [.pixClear]) (State.resetWith c) = .next t ∧ t.buf = (State.resetWith c).buf
end

