-- ==== Sys2Proof/Laws/Memory.lean ====
section
/-!
SUPPORT. Read after write, and that every memory operation keeps the canonical form.
-/
namespace Sys2Proof.Machine

@[simp] theorem Memory.read_nil (o : Nat) : Memory.read [] o = 0#8 := rfl

theorem Memory.read_cons (k : Nat) (v : Byte) (m : Memory) (o : Nat) :
    Memory.read ((k, v) :: m) o = if k = o then v else Memory.read m o := rfl

/-- An offset below every listed one reads as unlisted. -/
theorem Memory.read_of_lt_all {m : Memory} {o : Nat} (h : ∀ c ∈ m, o < c.1) :
    Memory.read m o = Memory.unlisted := by
  induction m with
  | nil => rfl
  | cons c m ih =>
    obtain ⟨k, v⟩ := c
    have hk : o < k := h (k, v) (by simp)
    rw [Memory.read_cons, if_neg (by omega)]
    exact ih fun c hc => h c (by simp [hc])

/-- The canonical form of a list is that of its tail and its head. -/
theorem Memory.wf_cons {c : Host.Cell} {m : Memory} :
    Memory.wf (c :: m) ↔ (∀ d ∈ m, c.1 < d.1) ∧ c.2 ≠ Memory.unlisted ∧ Memory.wf m := by
  simp only [Memory.wf, List.pairwise_cons, List.forall_mem_cons]
  tauto

/-- The empty list, the buffer after reset, is in canonical form. -/
theorem Memory.wf_nil : Memory.wf [] := by simp [Memory.wf]

/-- Every entry after a write is an old one or the one written. -/
theorem Memory.mem_write {m : Memory} {o : Nat} {v : Byte} {c : Host.Cell}
    (h : c ∈ Memory.write m o v) : c ∈ m ∨ (c = (o, v) ∧ v ≠ Memory.unlisted) := by
  induction m with
  | nil =>
    simp only [Memory.write] at h
    split at h
    · exact .inl h
    · exact .inr ⟨by simpa using h, ‹_›⟩
  | cons d m ih =>
    obtain ⟨k, w⟩ := d
    simp only [Memory.write] at h
    split at h
    · split at h
      · exact .inl h
      · rcases List.mem_cons.1 h with h | h
        · exact .inr ⟨h, ‹_›⟩
        · exact .inl h
    · split at h
      · split at h
        · exact .inl (List.mem_cons_of_mem _ h)
        · rcases List.mem_cons.1 h with h | h
          · exact .inr ⟨h, ‹_›⟩
          · exact .inl (List.mem_cons_of_mem _ h)
      · rcases List.mem_cons.1 h with h | h
        · exact .inl (by simp [h])
        · exact (ih h).imp (List.mem_cons_of_mem _) id

/-- A write keeps the canonical form. -/
theorem Memory.write_wf {m : Memory} (hm : Memory.wf m) (o : Nat) (v : Byte) :
    Memory.wf (Memory.write m o v) := by
  induction m with
  | nil =>
    simp only [Memory.write]
    split
    · exact hm
    · simpa [Memory.wf] using ‹_›
  | cons d m ih =>
    obtain ⟨k, w⟩ := d
    obtain ⟨hlt, hw, hm'⟩ := Memory.wf_cons.1 hm
    simp only [Memory.write]
    split
    · rename_i hok
      split
      · exact hm
      · refine Memory.wf_cons.2 ⟨?_, ‹_›, hm⟩
        intro d hd
        rcases List.mem_cons.1 hd with rfl | hd
        · exact hok
        · exact lt_trans hok (hlt d hd)
    · split
      · rename_i hok
        split
        · exact hm'
        · exact Memory.wf_cons.2 ⟨by simpa [hok] using hlt, ‹_›, hm'⟩
      · refine Memory.wf_cons.2 ⟨?_, hw, ih hm'⟩
        intro d hd
        rcases Memory.mem_write hd with hd | ⟨rfl, -⟩
        · exact hlt d hd
        · simp only; omega

/-- A write inside the buffer lists no offset outside it. -/
theorem Memory.write_within {m : Memory} {size : Nat} (hm : m.within size) {o : Nat} (ho : o < size)
    (v : Byte) : Memory.within (Memory.write m o v) size := by
  intro c hc
  rcases Memory.mem_write hc with hc | ⟨rfl, -⟩
  · exact hm c hc
  · exact ho

/-- Read after write (20_memory.md R46): the byte written at its offset, every other as before. -/
theorem Memory.read_write {m : Memory} (hm : Memory.wf m) (o : Nat) (v : Byte) (a : Nat) :
    Memory.read (Memory.write m o v) a = if a = o then v else Memory.read m a := by
  induction m with
  | nil =>
    simp only [Memory.write]
    split
    · rename_i hv
      split <;> simp [Memory.read, hv]
    · rw [Memory.read_cons]
      simp only [eq_comm, Memory.read]
  | cons d m ih =>
    obtain ⟨k, w⟩ := d
    obtain ⟨hlt, hw, hm'⟩ := Memory.wf_cons.1 hm
    simp only [Memory.write]
    split
    · rename_i hok
      split
      · rename_i hv
        split
        · subst a
          rw [hv, Memory.read_of_lt_all]
          intro c hc
          rcases List.mem_cons.1 hc with rfl | hc
          · exact hok
          · exact lt_trans hok (hlt c hc)
        · rfl
      · rw [Memory.read_cons]
        simp only [eq_comm]
    · split
      · rename_i hok
        subst o
        split
        · rename_i hv
          rw [Memory.read_cons]
          by_cases ha : a = k
          · subst a
            rw [if_pos rfl, hv, Memory.read_of_lt_all]
            exact hlt
          · rw [if_neg ha, if_neg (Ne.symm ha)]
        · rw [Memory.read_cons, Memory.read_cons]
          by_cases ha : a = k
          · simp [ha]
          · simp [ha, Ne.symm ha]
      · rename_i hok1 hok2
        rw [Memory.read_cons, Memory.read_cons, ih hm']
        by_cases ha : k = a
        · subst a
          simp only [if_true]
          rw [if_neg (Ne.symm hok2)]
        · simp [ha]

/-- Memories in canonical form that read alike everywhere are equal: equal contents are equal data. -/
theorem Memory.ext_read {m n : Memory} (hm : Memory.wf m) (hn : Memory.wf n)
    (h : ∀ a, Memory.read m a = Memory.read n a) : m = n := by
  induction m generalizing n with
  | nil =>
    cases n with
    | nil => rfl
    | cons d n =>
      obtain ⟨k, w⟩ := d
      obtain ⟨-, hw, -⟩ := Memory.wf_cons.1 hn
      have := h k
      rw [Memory.read_cons, if_pos rfl] at this
      exact absurd this.symm hw
  | cons c m ih =>
    obtain ⟨k, v⟩ := c
    obtain ⟨hlt, hv, hm'⟩ := Memory.wf_cons.1 hm
    cases n with
    | nil =>
      have := h k
      rw [Memory.read_cons, if_pos rfl] at this
      exact absurd this hv
    | cons d n =>
      obtain ⟨j, w⟩ := d
      obtain ⟨hlt', hw, hn'⟩ := Memory.wf_cons.1 hn
      have hkj : k = j := by
        rcases Nat.lt_trichotomy k j with hk | hk | hk
        · have := h k
          rw [Memory.read_cons, if_pos rfl, Memory.read_of_lt_all] at this
          · exact absurd this hv
          · intro c hc
            rcases List.mem_cons.1 hc with rfl | hc
            · exact hk
            · exact lt_trans hk (hlt' c hc)
        · exact hk
        · have := h j
          rw [Memory.read_cons (o := j) (k := j), if_pos rfl, Memory.read_of_lt_all] at this
          · exact absurd this.symm hw
          · intro c hc
            rcases List.mem_cons.1 hc with rfl | hc
            · exact hk
            · exact lt_trans hk (hlt c hc)
      subst j
      have hvw : v = w := by simpa [Memory.read_cons] using h k
      subst w
      have hmn : m = n := ih hm' hn' fun a => by
        by_cases ha : a = k
        · subst a
          rw [Memory.read_of_lt_all hlt, Memory.read_of_lt_all hlt']
        · simpa [Memory.read_cons, Ne.symm ha] using h a
      rw [hmn]

end Sys2Proof.Machine
end

