-- ==== Sys2Proof/Laws/State.lean ====
section
/-!
SUPPORT. One lemma per field per update of the state, true by rfl, so that no proof unfolds a record update.
-/
namespace Sys2Proof.Machine

/-! ### Effect.respond -/

@[simp] theorem Effect.respond_acc (e : Effect) : e.respond.acc = e.state.acc := rfl
@[simp] theorem Effect.respond_disc (e : Effect) : e.respond.disc = e.state.disc := rfl
@[simp] theorem Effect.respond_telemValue (e : Effect) :
    e.respond.telemValue = e.state.telemValue := rfl
@[simp] theorem Effect.respond_telemValid (e : Effect) :
    e.respond.telemValid = e.state.telemValid := rfl
@[simp] theorem Effect.respond_slot (e : Effect) : e.respond.slot = e.state.slot := rfl
@[simp] theorem Effect.respond_brightness (e : Effect) :
    e.respond.brightness = e.state.brightness := rfl
@[simp] theorem Effect.respond_buf (e : Effect) : e.respond.buf = e.state.buf := rfl
@[simp] theorem Effect.respond_lastOutcome (e : Effect) :
    e.respond.lastOutcome = e.response.outcome := rfl
@[simp] theorem Effect.respond_cfg (e : Effect) : e.respond.cfg = e.state.cfg := rfl
@[simp] theorem Effect.respond_inbox (e : Effect) : e.respond.inbox = e.state.inbox := rfl
@[simp] theorem Effect.respond_i2cIn (e : Effect) : e.respond.i2cIn = e.state.i2cIn := rfl
@[simp] theorem Effect.respond_freshDraws (e : Effect) :
    e.respond.freshDraws = e.state.freshDraws := rfl
@[simp] theorem Effect.respond_responses (e : Effect) :
    e.respond.responses = e.state.responses ++ [e.response] := rfl
@[simp] theorem Effect.respond_i2cReads (e : Effect) : e.respond.i2cReads = e.state.i2cReads := rfl
@[simp] theorem Effect.respond_ledFrames (e : Effect) :
    e.respond.ledFrames = e.state.ledFrames := rfl

/-! ### State.memWrite -/

@[simp] theorem State.memWrite_acc (s : State) (o : Nat) (v : Byte) :
    (s.memWrite o v).acc = s.acc := rfl
@[simp] theorem State.memWrite_disc (s : State) (o : Nat) (v : Byte) :
    (s.memWrite o v).disc = s.disc := rfl
@[simp] theorem State.memWrite_telemValue (s : State) (o : Nat) (v : Byte) :
    (s.memWrite o v).telemValue = s.telemValue := rfl
@[simp] theorem State.memWrite_telemValid (s : State) (o : Nat) (v : Byte) :
    (s.memWrite o v).telemValid = s.telemValid := rfl
@[simp] theorem State.memWrite_slot (s : State) (o : Nat) (v : Byte) :
    (s.memWrite o v).slot = s.slot := rfl
@[simp] theorem State.memWrite_brightness (s : State) (o : Nat) (v : Byte) :
    (s.memWrite o v).brightness = s.brightness := rfl
@[simp] theorem State.memWrite_buf (s : State) (o : Nat) (v : Byte) :
    (s.memWrite o v).buf = s.buf.write o v := rfl
@[simp] theorem State.memWrite_lastOutcome (s : State) (o : Nat) (v : Byte) :
    (s.memWrite o v).lastOutcome = s.lastOutcome := rfl
@[simp] theorem State.memWrite_cfg (s : State) (o : Nat) (v : Byte) :
    (s.memWrite o v).cfg = s.cfg := rfl
@[simp] theorem State.memWrite_inbox (s : State) (o : Nat) (v : Byte) :
    (s.memWrite o v).inbox = s.inbox := rfl
@[simp] theorem State.memWrite_i2cIn (s : State) (o : Nat) (v : Byte) :
    (s.memWrite o v).i2cIn = s.i2cIn := rfl
@[simp] theorem State.memWrite_freshDraws (s : State) (o : Nat) (v : Byte) :
    (s.memWrite o v).freshDraws = s.freshDraws := rfl
@[simp] theorem State.memWrite_responses (s : State) (o : Nat) (v : Byte) :
    (s.memWrite o v).responses = s.responses := rfl
@[simp] theorem State.memWrite_i2cReads (s : State) (o : Nat) (v : Byte) :
    (s.memWrite o v).i2cReads = s.i2cReads := rfl
@[simp] theorem State.memWrite_ledFrames (s : State) (o : Nat) (v : Byte) :
    (s.memWrite o v).ledFrames = s.ledFrames := rfl

/-! ### State.emitLED -/

@[simp] theorem State.emitLED_acc (s : State) : s.emitLED.acc = s.acc := rfl
@[simp] theorem State.emitLED_disc (s : State) : s.emitLED.disc = s.disc := rfl
@[simp] theorem State.emitLED_telemValue (s : State) : s.emitLED.telemValue = s.telemValue := rfl
@[simp] theorem State.emitLED_telemValid (s : State) : s.emitLED.telemValid = s.telemValid := rfl
@[simp] theorem State.emitLED_slot (s : State) : s.emitLED.slot = s.slot := rfl
@[simp] theorem State.emitLED_brightness (s : State) : s.emitLED.brightness = s.brightness := rfl
@[simp] theorem State.emitLED_buf (s : State) : s.emitLED.buf = s.buf := rfl
@[simp] theorem State.emitLED_lastOutcome (s : State) : s.emitLED.lastOutcome = s.lastOutcome := rfl
@[simp] theorem State.emitLED_cfg (s : State) : s.emitLED.cfg = s.cfg := rfl
@[simp] theorem State.emitLED_inbox (s : State) : s.emitLED.inbox = s.inbox := rfl
@[simp] theorem State.emitLED_i2cIn (s : State) : s.emitLED.i2cIn = s.i2cIn := rfl
@[simp] theorem State.emitLED_freshDraws (s : State) : s.emitLED.freshDraws = s.freshDraws := rfl
@[simp] theorem State.emitLED_responses (s : State) : s.emitLED.responses = s.responses := rfl
@[simp] theorem State.emitLED_i2cReads (s : State) : s.emitLED.i2cReads = s.i2cReads := rfl
@[simp] theorem State.emitLED_ledFrames (s : State) :
    s.emitLED.ledFrames = s.ledFrames ++ [s.bufBytes] := rfl

/-! ### State.afterI2C -/

@[simp] theorem State.afterI2C_acc (s : State) (n : Nat) : (s.afterI2C n).acc = s.acc := rfl
@[simp] theorem State.afterI2C_disc (s : State) (n : Nat) : (s.afterI2C n).disc = s.disc := rfl
@[simp] theorem State.afterI2C_telemValue (s : State) (n : Nat) :
    (s.afterI2C n).telemValue = s.telemValue := rfl
@[simp] theorem State.afterI2C_telemValid (s : State) (n : Nat) :
    (s.afterI2C n).telemValid = s.telemValid := rfl
@[simp] theorem State.afterI2C_slot (s : State) (n : Nat) : (s.afterI2C n).slot = s.slot := rfl
@[simp] theorem State.afterI2C_brightness (s : State) (n : Nat) :
    (s.afterI2C n).brightness = s.brightness := rfl
@[simp] theorem State.afterI2C_buf (s : State) (n : Nat) : (s.afterI2C n).buf = s.buf := rfl
@[simp] theorem State.afterI2C_lastOutcome (s : State) (n : Nat) :
    (s.afterI2C n).lastOutcome = s.lastOutcome := rfl
@[simp] theorem State.afterI2C_cfg (s : State) (n : Nat) : (s.afterI2C n).cfg = s.cfg := rfl
@[simp] theorem State.afterI2C_inbox (s : State) (n : Nat) : (s.afterI2C n).inbox = s.inbox := rfl
@[simp] theorem State.afterI2C_i2cIn (s : State) (n : Nat) :
    (s.afterI2C n).i2cIn = s.i2cIn.tail := rfl
@[simp] theorem State.afterI2C_freshDraws (s : State) (n : Nat) :
    (s.afterI2C n).freshDraws = if s.i2cIn.isEmpty then s.freshDraws + 1 else s.freshDraws := rfl
@[simp] theorem State.afterI2C_responses (s : State) (n : Nat) :
    (s.afterI2C n).responses = s.responses := rfl
@[simp] theorem State.afterI2C_i2cReads (s : State) (n : Nat) :
    (s.afterI2C n).i2cReads = s.i2cReads ++ [{ addr := s.cfg.aiAddr, count := n, returned := s.i2cData n }] := rfl
@[simp] theorem State.afterI2C_ledFrames (s : State) (n : Nat) :
    (s.afterI2C n).ledFrames = s.ledFrames := rfl

/-! ### State.resetInput -/

@[simp] theorem State.resetInput_acc (s : State) : s.resetInput.acc = [] := rfl
@[simp] theorem State.resetInput_disc (s : State) : s.resetInput.disc = false := rfl
@[simp] theorem State.resetInput_telemValue (s : State) : s.resetInput.telemValue = 0#16 := rfl
@[simp] theorem State.resetInput_telemValid (s : State) : s.resetInput.telemValid = false := rfl
@[simp] theorem State.resetInput_slot (s : State) : s.resetInput.slot = .empty := rfl
@[simp] theorem State.resetInput_brightness (s : State) : s.resetInput.brightness = 255#8 := rfl
@[simp] theorem State.resetInput_buf (s : State) : s.resetInput.buf = [] := rfl
@[simp] theorem State.resetInput_lastOutcome (s : State) : s.resetInput.lastOutcome = .ok := rfl
@[simp] theorem State.resetInput_cfg (s : State) : s.resetInput.cfg = s.cfg := rfl
@[simp] theorem State.resetInput_inbox (s : State) : s.resetInput.inbox = s.inbox := rfl
@[simp] theorem State.resetInput_i2cIn (s : State) : s.resetInput.i2cIn = s.i2cIn := rfl
@[simp] theorem State.resetInput_freshDraws (s : State) :
    s.resetInput.freshDraws = s.freshDraws := rfl
@[simp] theorem State.resetInput_responses (s : State) : s.resetInput.responses = s.responses := rfl
@[simp] theorem State.resetInput_i2cReads (s : State) : s.resetInput.i2cReads = s.i2cReads := rfl
@[simp] theorem State.resetInput_ledFrames (s : State) : s.resetInput.ledFrames = s.ledFrames := rfl

/-! ### State.issue -/

@[simp] theorem State.issue_acc (s : State) (w : Word) : (s.issue w).acc = s.acc := rfl
@[simp] theorem State.issue_disc (s : State) (w : Word) : (s.issue w).disc = s.disc := rfl
@[simp] theorem State.issue_telemValue (s : State) (w : Word) :
    (s.issue w).telemValue = s.telemValue := rfl
@[simp] theorem State.issue_telemValid (s : State) (w : Word) :
    (s.issue w).telemValid = s.telemValid := rfl
@[simp] theorem State.issue_slot (s : State) (w : Word) : (s.issue w).slot = s.slot := rfl
@[simp] theorem State.issue_brightness (s : State) (w : Word) :
    (s.issue w).brightness = s.brightness := rfl
@[simp] theorem State.issue_buf (s : State) (w : Word) : (s.issue w).buf = s.buf := rfl
@[simp] theorem State.issue_lastOutcome (s : State) (w : Word) :
    (s.issue w).lastOutcome = s.lastOutcome := rfl
@[simp] theorem State.issue_cfg (s : State) (w : Word) : (s.issue w).cfg = s.cfg := rfl
@[simp] theorem State.issue_inbox (s : State) (w : Word) :
    (s.issue w).inbox = .command w :: s.inbox := rfl
@[simp] theorem State.issue_i2cIn (s : State) (w : Word) : (s.issue w).i2cIn = s.i2cIn := rfl
@[simp] theorem State.issue_freshDraws (s : State) (w : Word) :
    (s.issue w).freshDraws = s.freshDraws := rfl
@[simp] theorem State.issue_responses (s : State) (w : Word) :
    (s.issue w).responses = s.responses := rfl
@[simp] theorem State.issue_i2cReads (s : State) (w : Word) :
    (s.issue w).i2cReads = s.i2cReads := rfl
@[simp] theorem State.issue_ledFrames (s : State) (w : Word) :
    (s.issue w).ledFrames = s.ledFrames := rfl

/-! ### acceptTelem -/

@[simp] theorem acceptTelem_acc (v : BitVec 8) (s : State) : (acceptTelem v s).acc = s.acc := rfl
@[simp] theorem acceptTelem_disc (v : BitVec 8) (s : State) : (acceptTelem v s).disc = s.disc := rfl
@[simp] theorem acceptTelem_telemValue (v : BitVec 8) (s : State) :
    (acceptTelem v s).telemValue = telem v := rfl
@[simp] theorem acceptTelem_telemValid (v : BitVec 8) (s : State) :
    (acceptTelem v s).telemValid = true := rfl
@[simp] theorem acceptTelem_slot (v : BitVec 8) (s : State) : (acceptTelem v s).slot = s.slot := rfl
@[simp] theorem acceptTelem_brightness (v : BitVec 8) (s : State) :
    (acceptTelem v s).brightness = s.brightness := rfl
@[simp] theorem acceptTelem_buf (v : BitVec 8) (s : State) : (acceptTelem v s).buf = s.buf := rfl
@[simp] theorem acceptTelem_lastOutcome (v : BitVec 8) (s : State) :
    (acceptTelem v s).lastOutcome = s.lastOutcome := rfl
@[simp] theorem acceptTelem_cfg (v : BitVec 8) (s : State) : (acceptTelem v s).cfg = s.cfg := rfl
@[simp] theorem acceptTelem_inbox (v : BitVec 8) (s : State) :
    (acceptTelem v s).inbox = s.inbox := rfl
@[simp] theorem acceptTelem_i2cIn (v : BitVec 8) (s : State) :
    (acceptTelem v s).i2cIn = s.i2cIn := rfl
@[simp] theorem acceptTelem_freshDraws (v : BitVec 8) (s : State) :
    (acceptTelem v s).freshDraws = s.freshDraws := rfl
@[simp] theorem acceptTelem_responses (v : BitVec 8) (s : State) :
    (acceptTelem v s).responses = s.responses := rfl
@[simp] theorem acceptTelem_i2cReads (v : BitVec 8) (s : State) :
    (acceptTelem v s).i2cReads = s.i2cReads := rfl
@[simp] theorem acceptTelem_ledFrames (v : BitVec 8) (s : State) :
    (acceptTelem v s).ledFrames = s.ledFrames := rfl

/-! ### complete and reject -/

@[simp] theorem complete_state (s : State) (o : Code) (v : Nat) (t : Bytes) :
    (complete s o v t).state = s := rfl
@[simp] theorem complete_outcome (s : State) (o : Code) (v : Nat) (t : Bytes) :
    (complete s o v t).response.outcome = o := rfl
@[simp] theorem complete_value (s : State) (o : Code) (v : Nat) (t : Bytes) :
    (complete s o v t).response.value = BitVec.ofNat 32 v := rfl
@[simp] theorem complete_text (s : State) (o : Code) (v : Nat) (t : Bytes) :
    (complete s o v t).response.text = t := rfl
@[simp] theorem reject_state (s : State) (o : Code) (v : Nat) : (reject s o v).state = s := rfl
@[simp] theorem reject_outcome (s : State) (o : Code) (v : Nat) :
    (reject s o v).response.outcome = o := rfl
@[simp] theorem reject_value (s : State) (o : Code) (v : Nat) :
    (reject s o v).response.value = BitVec.ofNat 32 v := rfl
@[simp] theorem reject_text (s : State) (o : Code) (v : Nat) :
    (reject s o v).response.text = [] := rfl
@[simp] theorem illegal_state (s : State) : (illegal s).state = s := rfl

/-- What completing does, whole: the two writes of 30_encoding.md R67. -/
theorem complete_respond (s : State) (o : Code) (v : Nat) (t : Bytes) :
    (complete s o v t).respond =
      { s with lastOutcome := o, responses := s.responses ++ [⟨o, BitVec.ofNat 32 v, t⟩] } := rfl

/-- What rejecting does, whole (00_scope.md R11). -/
theorem reject_respond (s : State) (o : Code) (v : Nat) :
    (reject s o v).respond =
      { s with lastOutcome := o, responses := s.responses ++ [⟨o, BitVec.ofNat 32 v, []⟩] } := rfl

end Sys2Proof.Machine
end

