-- ==== Sys2Proof/Laws/Ops.lean ====
section
/-!
SUPPORT. What each shared operation of Machine/Ops.lean can do, said once.
-/
namespace Sys2Proof.Machine

/-- One byte read after one written (20_memory.md R46). -/
theorem State.memRead_memWrite {s : State} (hs : s.buf.wf) (o : Nat) (v : Byte) (a : Nat) :
    (s.memWrite o v).memRead a = if a = o then v else s.memRead a :=
  Memory.read_write hs o v a

/-- A byte write keeps the buffer's canonical form. -/
theorem State.memWrite_wf {s : State} (hs : s.buf.wf) (o : Nat) (v : Byte) :
    (s.memWrite o v).buf.wf :=
  Memory.write_wf hs o v

/-- The next answers of the transport move up by one. -/
theorem State.upcoming_afterI2C (s : State) (n k : Nat) :
    (s.afterI2C n).upcoming k = s.upcoming (k + 1) := by
  unfold State.upcoming
  cases hi : s.i2cIn with
  | nil => simp [hi, Nat.add_comm, Nat.add_left_comm]
  | cons r rs => simp [hi]

/-- A read gives the block at most what it asked for (R58). -/
theorem State.i2cData_length_le (s : State) (n : Nat) : (s.i2cData n).length ≤ n := by
  simp [State.i2cData]

/-- An emitted frame is the whole buffer (R59). -/
@[simp] theorem State.bufBytes_length (s : State) : s.bufBytes.length = s.cfg.bufSize := by
  simp [State.bufBytes]

/-- Byte `o` of an emitted frame is byte `o` of the buffer (R48, R59). -/
theorem State.bufBytes_getElem? (s : State) {o : Nat} (ho : o < s.cfg.bufSize) :
    s.bufBytes[o]? = some (s.memRead o) := by
  simp [State.bufBytes, ho]

/-- The emitted bytes depend on the buffer and the parameters alone. -/
theorem State.bufBytes_congr {s t : State} (hb : t.buf = s.buf) (hc : t.cfg = s.cfg) :
    t.bufBytes = s.bufBytes := by
  unfold State.bufBytes State.memRead
  rw [hb, hc]

/-- MAX_LEN is 8192 in every well-formed configuration (00_scope.md R7). -/
theorem Config.maxLen_eq (c : Config) : c.maxLen = 8192#16 := by
  have h := c.ok
  simp only [Params.wf, Params.maxLenOk, Bool.and_eq_true, beq_iff_eq] at h
  exact h.2

/-- The active region lies in the buffer (00_scope.md R7). -/
theorem Config.activeHi_le (c : Config) : c.activeHi ≤ c.bufSize := by
  have h := c.ok
  simp only [Params.wf, Params.regionOk, Bool.and_eq_true, decide_eq_true_eq] at h
  exact Nat.mul_le_mul_right _ h.1.1.1.1.2

/-- STRIDE is 3 or 4, so positive (00_scope.md R5). -/
theorem Params.stride_pos (p : Params) : 0 < p.stride := by
  unfold Params.stride
  cases p.mode <;> simp

/-- ACC_CAP is at least 8 (00_scope.md R7). -/
theorem Config.accCap_ge (c : Config) {n : Nat} (h : c.accCap = .bounded n) : 8 ≤ n := by
  have hok := c.ok
  simp only [Params.wf, Params.accCapOk, h, Bool.and_eq_true, decide_eq_true_eq] at hok
  exact hok.1.1.1.1.1

end Sys2Proof.Machine
end

