-- ==== Sys2Proof/Laws/Ai.lean ====
section
/-!
SUPPORT. What AI_POLL can do, said once, and the checksum's algebra.
-/
namespace Sys2Proof.Machine

/-- The fold from any starting byte. -/
theorem xorFold_from (s : Bytes) (x : Byte) : s.foldl (· ^^^ ·) x = x ^^^ xorFold s := by
  induction s generalizing x with
  | nil => simp [xorFold]
  | cons b s ih =>
    have hb : xorFold (b :: s) = b ^^^ xorFold s := by
      rw [xorFold, List.foldl_cons, ih]
      simp
    rw [List.foldl_cons, ih, hb, BitVec.xor_assoc]

/-- The checksum of a joined string is the exclusive or of the checksums (41_ai_framer.md R107). -/
theorem xorFold_append (s t : Bytes) : xorFold (s ++ t) = xorFold s ^^^ xorFold t := by
  rw [xorFold, List.foldl_append, xorFold_from]
  rfl

/-- A frame's decoding changes the slot only, and to what 10_state.md R19 allows. -/
theorem decodeFrame_cases (payload : Bytes) (ck : Byte) (len : Nat) (s : State) :
    (decodeFrame payload ck len s).state = s ∨
    (∃ i, i.toNat < s.cfg.nStatus ∧ (decodeFrame payload ck len s).state = { s with slot := .status i }) ∨
    ∃ t, Cap.allows s.cfg.slotCap t.length = true ∧
      (decodeFrame payload ck len s).state = { s with slot := .json t } := by
  unfold decodeFrame
  split
  · exact .inl rfl
  · split
    · unfold decodeStatus
      split
      · exact .inl rfl
      · exact .inr (.inl ⟨_, by omega, rfl⟩)
    · unfold decodeJson
      split
      · exact .inl rfl
      · split
        · exact .inr (.inr ⟨_, ‹_›, rfl⟩)
        · exact .inl rfl

/-- Everything AI_POLL can leave (R109): after the header read alone, or after the body read of a good
length, with the slot as it was or as a good frame sets it. -/
theorem aiPoll_cases (s : State) :
    (aiPoll s).state = s.afterI2C 4 ∨
    ∃ len, 1 ≤ len ∧ len ≤ 8192 ∧
      ((aiPoll s).state = (s.afterI2C 4).afterI2C (len + 1) ∨
      (∃ i, i.toNat < s.cfg.nStatus ∧
        (aiPoll s).state = { (s.afterI2C 4).afterI2C (len + 1) with slot := .status i }) ∨
      ∃ t, Cap.allows s.cfg.slotCap t.length = true ∧
        (aiPoll s).state = { (s.afterI2C 4).afterI2C (len + 1) with slot := .json t }) := by
  unfold aiPoll
  split
  · exact .inl rfl
  · split
    · exact .inl rfl
    · split
      · exact .inl rfl
      · rename_i hlen
        have hlen' : 1 ≤ (headerLen (s.i2cData 4)).toNat ∧ (headerLen (s.i2cData 4)).toNat ≤ 8192 := by
          have : ¬(headerLen (s.i2cData 4)).toNat = 0 ∧ (headerLen (s.i2cData 4)).toNat ≤ 8192 := by
            simpa [lengthOk, Config.maxLen_eq] using hlen
          omega
        refine .inr ⟨_, hlen'.1, hlen'.2, ?_⟩
        unfold readBody
        split
        · exact .inl rfl
        · exact decodeFrame_cases _ _ _ ((s.afterI2C 4).afterI2C _)

/-- AI_TAKE empties the slot and changes nothing else (R113). -/
theorem aiTake_state (s : State) : (aiTake s).state = { s with slot := .empty } := by
  unfold aiTake
  cases s.slot <;> rfl

end Sys2Proof.Machine
end

