-- ==== Sys2Proof/Laws/Encoding.lean ====
section
/-!
SUPPORT. The bits of an encoded command, format by format (30_encoding.md R63): every other fact about the
encoding is read off these.
-/
namespace Sys2Proof

theorem getLsbD_formatN (op : Byte) (k : Nat) :
    (formatN op).getLsbD k = if k < 56 then false else op.getLsbD (k - 56) := by
  simp only [formatN, BitVec.getLsbD_append]
  grind

theorem getLsbD_formatB (op imm : Byte) (k : Nat) :
    (formatB op imm).getLsbD k =
      if k < 8 then imm.getLsbD k else if k < 56 then false else op.getLsbD (k - 56) := by
  simp only [formatB, BitVec.getLsbD_append]
  grind

theorem getLsbD_formatIC (op : Byte) (idx : BitVec 16) (col : Byte) (k : Nat) :
    (formatIC op idx col).getLsbD k =
      if k < 8 then col.getLsbD k else if k < 32 then false
      else if k < 48 then idx.getLsbD (k - 32) else if k < 56 then false else op.getLsbD (k - 56) := by
  simp only [formatIC, BitVec.getLsbD_append]
  grind

theorem getLsbD_formatIRGB (op : Byte) (idx : BitVec 16) (r g b : Byte) (k : Nat) :
    (formatIRGB op idx r g b).getLsbD k =
      if k < 8 then b.getLsbD k else if k < 16 then g.getLsbD (k - 8)
      else if k < 24 then r.getLsbD (k - 16) else if k < 32 then false
      else if k < 48 then idx.getLsbD (k - 32) else if k < 56 then false else op.getLsbD (k - 56) := by
  simp only [formatIRGB, BitVec.getLsbD_append]
  grind

theorem getLsbD_formatW (op : Byte) (off : BitVec 32) (k : Nat) :
    (formatW op off).getLsbD k =
      if k < 32 then off.getLsbD k else if k < 56 then false else op.getLsbD (k - 56) := by
  simp only [formatW, BitVec.getLsbD_append]
  grind

/-- Every encoded word has its row's OPCODE in bits 63:56, in each format (R62). -/
theorem opcodeField_formatN (op : Byte) : opcodeField (formatN op) = op := by
  apply BitVec.eq_of_getLsbD_eq
  intro k hk
  simp only [opcodeField, BitVec.getLsbD_extractLsb', getLsbD_formatN]
  grind

theorem opcodeField_formatB (op imm : Byte) : opcodeField (formatB op imm) = op := by
  apply BitVec.eq_of_getLsbD_eq
  intro k hk
  simp only [opcodeField, BitVec.getLsbD_extractLsb', getLsbD_formatB]
  grind

theorem opcodeField_formatIC (op : Byte) (idx : BitVec 16) (col : Byte) :
    opcodeField (formatIC op idx col) = op := by
  apply BitVec.eq_of_getLsbD_eq
  intro k hk
  simp only [opcodeField, BitVec.getLsbD_extractLsb', getLsbD_formatIC]
  grind

theorem opcodeField_formatIRGB (op : Byte) (idx : BitVec 16) (r g b : Byte) :
    opcodeField (formatIRGB op idx r g b) = op := by
  apply BitVec.eq_of_getLsbD_eq
  intro k hk
  simp only [opcodeField, BitVec.getLsbD_extractLsb', getLsbD_formatIRGB]
  grind

theorem opcodeField_formatW (op : Byte) (off : BitVec 32) : opcodeField (formatW op off) = op := by
  apply BitVec.eq_of_getLsbD_eq
  intro k hk
  simp only [opcodeField, BitVec.getLsbD_extractLsb', getLsbD_formatW]
  grind

/-- The masks of opcode_table.json keep the OPCODE and the zeros of a format (R68). -/
theorem formatB_and_mask (op imm : Byte) : formatB op imm &&& 0xFFFFFFFFFFFFFF00#64 = op ++ 0#56 := by
  apply BitVec.eq_of_getLsbD_eq
  intro k hk
  simp only [BitVec.getLsbD_and, getLsbD_formatB, BitVec.getLsbD_append]
  interval_cases k <;> simp

theorem formatIC_and_mask (op : Byte) (idx : BitVec 16) (col : Byte) :
    formatIC op idx col &&& 0xFFFF0000FFFFFF00#64 = op ++ 0#56 := by
  apply BitVec.eq_of_getLsbD_eq
  intro k hk
  simp only [BitVec.getLsbD_and, getLsbD_formatIC, BitVec.getLsbD_append]
  interval_cases k <;> simp

theorem formatIRGB_and_mask (op : Byte) (idx : BitVec 16) (r g b : Byte) :
    formatIRGB op idx r g b &&& 0xFFFF0000FF000000#64 = op ++ 0#56 := by
  apply BitVec.eq_of_getLsbD_eq
  intro k hk
  simp only [BitVec.getLsbD_and, getLsbD_formatIRGB, BitVec.getLsbD_append]
  interval_cases k <;> simp

theorem formatW_and_mask (op : Byte) (off : BitVec 32) :
    formatW op off &&& 0xFFFFFFFF00000000#64 = op ++ 0#56 := by
  apply BitVec.eq_of_getLsbD_eq
  intro k hk
  simp only [BitVec.getLsbD_and, getLsbD_formatW, BitVec.getLsbD_append]
  interval_cases k <;> simp

end Sys2Proof

/-! ### Assembler operands (30_encoding.md R79) -/

namespace Sys2Proof.Machine

/-- A field's own value fits it. -/
theorem fieldOperand_of_field {w : Nat} (v : BitVec w) : fieldOperand w (.num v.toNat) = some v := by
  simp [fieldOperand, toField, fits, v.isLt]

/-- A value that does not fit is refused and not truncated. -/
theorem fieldOperand_of_large {w n : Nat} (h : 2 ^ w ≤ n) : fieldOperand w (.num n) = none := by
  simp [fieldOperand, toField, fits, Nat.not_lt.mpr h]

/-- A numeric index is a 16-bit field. -/
theorem indexOperand_num (c : Config) (n : Nat) : indexOperand c (.num n) = fieldOperand 16 (.num n) := rfl

end Sys2Proof.Machine
end

