-- ==== Sys2Proof/Laws/Pixel.lean ====
section
/-!
SUPPORT. What the pixel codec's shared operations write: `place`, its loop, and the zeroing loop.
-/
namespace Sys2Proof.Machine

/-- The length of one pixel's bytes is STRIDE (42_pixel_codec.md R129). -/
theorem channelBytes_length (p : Params) (r g b : Byte) :
    (channelBytes p.mode r g b).length = p.stride := by
  unfold Params.stride channelBytes
  cases p.mode <;> rfl

/-- `place` writes the buffer and nothing else (R130). -/
theorem place_eq (i : Nat) (r g b : Byte) (s : State) :
    place i r g b s = { s with buf := (place i r g b s).buf } := by
  unfold place
  cases s.cfg.mode <;> rfl

@[simp] theorem place_cfg (i : Nat) (r g b : Byte) (s : State) : (place i r g b s).cfg = s.cfg := by
  rw [place_eq]

/-- `place` keeps the buffer's canonical form. -/
theorem place_wf {s : State} (hs : s.buf.wf) (i : Nat) (r g b : Byte) : (place i r g b s).buf.wf := by
  unfold place
  cases s.cfg.mode <;>
    simp only [State.memWrite_buf] <;>
    repeat' first
      | exact hs
      | apply Memory.write_wf

/-- What `place` leaves at every offset (R130): the pixel's channels in MODE's order, and every other byte as
it was. -/
theorem place_read {s : State} (hs : s.buf.wf) (i : Nat) (r g b : Byte) (o : Nat) :
    (place i r g b s).memRead o =
      if pixelBase s.cfg i ≤ o ∧ o < pixelBase s.cfg i + s.cfg.stride then
        (channelBytes s.cfg.mode r g b).getD (o - pixelBase s.cfg i) 0#8
      else s.memRead o := by
  have hwf : ∀ {m : Memory}, m.wf → ∀ a v, Memory.wf (Memory.write m a v) := fun h a v =>
    Memory.write_wf h a v
  have hcases : ∀ base, (o < base ∨ base + 4 ≤ o) ∨ o = base ∨ o = base + 1 ∨ o = base + 2 ∨
      o = base + 3 := by omega
  unfold place
  generalize pixelBase s.cfg i = base
  cases hm : s.cfg.mode <;>
    simp only [Params.stride, hm, channelBytes, State.memRead, State.memWrite_buf,
      Memory.read_write (hwf (hwf (hwf hs _ _) _ _) _ _), Memory.read_write (hwf (hwf hs _ _) _ _),
      Memory.read_write (hwf hs _ _), Memory.read_write hs] <;>
    rcases hcases base with (h | h) | rfl | rfl | rfl | rfl <;>
    grind

/-- The writing loop writes the buffer and nothing else (R132). -/
theorem placeFirst_eq (n : Nat) (r g b : Byte) (s : State) :
    placeFirst n r g b s = { s with buf := (placeFirst n r g b s).buf } := by
  induction n with
  | zero => rfl
  | succ n ih =>
    rw [placeFirst, place_eq, ih]

@[simp] theorem placeFirst_cfg (n : Nat) (r g b : Byte) (s : State) :
    (placeFirst n r g b s).cfg = s.cfg := by
  rw [placeFirst_eq]

/-- The writing loop keeps the buffer's canonical form. -/
theorem placeFirst_wf {s : State} (hs : s.buf.wf) (n : Nat) (r g b : Byte) :
    (placeFirst n r g b s).buf.wf := by
  induction n with
  | zero => exact hs
  | succ n ih => exact place_wf ih n r g b

/-- What the writing loop leaves at every offset: the channels of every pixel below `n`, and every other byte
as it was (R132). -/
theorem placeFirst_read {s : State} (hs : s.buf.wf) (n : Nat) (r g b : Byte) (o : Nat) :
    (placeFirst n r g b s).memRead o =
      if pixelBase s.cfg 0 ≤ o ∧ o < pixelBase s.cfg n then
        (channelBytes s.cfg.mode r g b).getD (o % s.cfg.stride) 0#8
      else s.memRead o := by
  induction n with
  | zero => rw [if_neg (by omega)]; rfl
  | succ n ih =>
    have hpos := Params.stride_pos s.cfg.toParams
    have hb : pixelBase s.cfg (n + 1) = pixelBase s.cfg n + s.cfg.stride := by
      simp only [pixelBase]; ring
    have h0 : pixelBase s.cfg 0 ≤ pixelBase s.cfg n :=
      Nat.mul_le_mul_right _ (by omega)
    rw [placeFirst, place_read (placeFirst_wf hs n r g b), ih, placeFirst_cfg, hb]
    by_cases hin : pixelBase s.cfg n ≤ o ∧ o < pixelBase s.cfg n + s.cfg.stride
    · rw [if_pos hin, if_pos ⟨by omega, by omega⟩]
      congr 1
      obtain ⟨d, rfl⟩ := Nat.exists_eq_add_of_le hin.1
      rw [Nat.add_sub_cancel_left, pixelBase, Nat.mul_comm, Nat.mul_add_mod, Nat.mod_eq_of_lt (by omega)]
    · rw [if_neg hin]
      by_cases hlow : pixelBase s.cfg 0 ≤ o ∧ o < pixelBase s.cfg n
      · rw [if_pos hlow, if_pos ⟨hlow.1, by omega⟩]
      · rw [if_neg hlow, if_neg (by omega)]

/-- The zeroing loop writes the buffer and nothing else (R134). -/
theorem zeroFrom_eq (lo n : Nat) (s : State) : zeroFrom lo n s = { s with buf := (zeroFrom lo n s).buf } := by
  induction n with
  | zero => rfl
  | succ n ih => rw [zeroFrom, ih]; rfl

/-- The zeroing loop keeps the buffer's canonical form. -/
theorem zeroFrom_wf {s : State} (hs : s.buf.wf) (lo n : Nat) : (zeroFrom lo n s).buf.wf := by
  induction n with
  | zero => exact hs
  | succ n ih => exact Memory.write_wf ih _ _

/-- What the zeroing loop leaves at every offset (R134). -/
theorem zeroFrom_read {s : State} (hs : s.buf.wf) (lo n o : Nat) :
    (zeroFrom lo n s).memRead o = if lo ≤ o ∧ o < lo + n then 0#8 else s.memRead o := by
  induction n with
  | zero => rw [if_neg (by omega)]; rfl
  | succ n ih =>
    rw [zeroFrom, State.memRead_memWrite (zeroFrom_wf hs lo n), ih]
    split_ifs <;> first
      | rfl
      | omega

/-- The zeroing of the active region writes the buffer and nothing else. -/
theorem zeroActive_eq (s : State) : zeroActive s = { s with buf := (zeroActive s).buf } :=
  zeroFrom_eq _ _ s

@[simp] theorem zeroActive_acc (s : State) : (zeroActive s).acc = s.acc := by
  rw [zeroActive_eq]
@[simp] theorem zeroActive_disc (s : State) : (zeroActive s).disc = s.disc := by
  rw [zeroActive_eq]
@[simp] theorem zeroActive_telemValue (s : State) : (zeroActive s).telemValue = s.telemValue := by
  rw [zeroActive_eq]
@[simp] theorem zeroActive_telemValid (s : State) : (zeroActive s).telemValid = s.telemValid := by
  rw [zeroActive_eq]
@[simp] theorem zeroActive_slot (s : State) : (zeroActive s).slot = s.slot := by
  rw [zeroActive_eq]
@[simp] theorem zeroActive_brightness (s : State) : (zeroActive s).brightness = s.brightness := by
  rw [zeroActive_eq]
@[simp] theorem zeroActive_lastOutcome (s : State) : (zeroActive s).lastOutcome = s.lastOutcome := by
  rw [zeroActive_eq]
@[simp] theorem zeroActive_cfg (s : State) : (zeroActive s).cfg = s.cfg := by
  rw [zeroActive_eq]
@[simp] theorem zeroActive_inbox (s : State) : (zeroActive s).inbox = s.inbox := by
  rw [zeroActive_eq]
@[simp] theorem zeroActive_i2cIn (s : State) : (zeroActive s).i2cIn = s.i2cIn := by
  rw [zeroActive_eq]
@[simp] theorem zeroActive_freshDraws (s : State) : (zeroActive s).freshDraws = s.freshDraws := by
  rw [zeroActive_eq]
@[simp] theorem zeroActive_responses (s : State) : (zeroActive s).responses = s.responses := by
  rw [zeroActive_eq]
@[simp] theorem zeroActive_i2cReads (s : State) : (zeroActive s).i2cReads = s.i2cReads := by
  rw [zeroActive_eq]
@[simp] theorem zeroActive_ledFrames (s : State) : (zeroActive s).ledFrames = s.ledFrames := by
  rw [zeroActive_eq]

/-- What zeroing the active region leaves at every offset (R134). -/
theorem zeroActive_read {s : State} (hs : s.buf.wf) (o : Nat) :
    (zeroActive s).memRead o = if activeOffset s.cfg o then 0#8 else s.memRead o := by
  have hle : s.cfg.activeLo ≤ s.cfg.activeHi := Nat.mul_le_mul_right _ (by omega)
  rw [zeroActive, zeroFrom_read hs]
  simp only [activeOffset, Nat.add_sub_cancel' hle]

/-- The three things a pixel write does (R131 to R133). -/
theorem pixWrite_cases (idx : BitVec 16) (r g b : Byte) (s : State) :
    (idx.toNat < s.cfg.count.toNat ∧
      pixWrite idx r g b s =
        complete (place idx.toNat (scale r s.brightness) (scale g s.brightness) (scale b s.brightness) s)
          .pixWroteOne idx.toNat []) ∨
    (idx.toNat = s.cfg.count.toNat ∧
      pixWrite idx r g b s =
        complete
          (placeFirst s.cfg.count.toNat (scale r s.brightness) (scale g s.brightness)
            (scale b s.brightness) s)
          .pixWroteAll s.cfg.count.toNat []) ∨
    (s.cfg.count.toNat < idx.toNat ∧ pixWrite idx r g b s = reject s .pixIndexIgnored idx.toNat) := by
  unfold pixWrite target
  rcases Nat.lt_trichotomy idx.toNat s.cfg.count.toNat with h | h | h
  · exact .inl ⟨h, by rw [if_pos h]⟩
  · exact .inr (.inl ⟨h, by rw [if_neg (by omega), if_pos h]⟩)
  · exact .inr (.inr ⟨h, by rw [if_neg (by omega), if_neg (by omega)]⟩)

end Sys2Proof.Machine
end

