-- ==== Sys2Proof/Laws/Serial.lean ====
section
/-!
SUPPORT. What the serial framer's shared operations do: finding a frame, taking one, and the drain loop.
-/
namespace Sys2Proof.Machine

/-- No `'$'`, no first `'$'` (40_serial_framer.md R90). -/
theorem firstDollar_eq_none {acc : Bytes} : firstDollar acc = none ↔ dollar ∉ acc := by
  simp only [firstDollar, List.findIdx?_eq_none_iff, beq_eq_false_iff_ne]
  exact ⟨fun h hm => h _ hm rfl, fun h b hb hd => h (hd ▸ hb)⟩

/-- The first `'$'` stands right after the first frame's body (R90, R93). -/
theorem firstDollar_append {body : Bytes} (h : dollar ∉ body) (rest : Bytes) :
    firstDollar (body ++ dollar :: rest) = some body.length := by
  induction body with
  | nil => simp [firstDollar, List.findIdx?_cons]
  | cons b bs ih =>
    have hb : b ≠ dollar := fun hb => h (by simp [hb])
    have hbs : dollar ∉ bs := fun hd => h (by simp [hd])
    have := ih hbs
    simp only [firstDollar] at this ⊢
    simp [List.findIdx?_cons, hb, this]

/-- An accumulator with a `'$'` is a body without one, the `'$'`, and the rest. -/
theorem exists_first_frame {acc : Bytes} (h : dollar ∈ acc) :
    ∃ body rest, acc = body ++ dollar :: rest ∧ dollar ∉ body := by
  induction acc with
  | nil => simp at h
  | cons b bs ih =>
    by_cases hb : b = dollar
    · exact ⟨[], bs, by simp [hb], by simp⟩
    · obtain ⟨body, rest, rfl, hn⟩ := ih (by simpa [Ne.symm hb] using h)
      exact ⟨b :: body, rest, rfl, by simp [Ne.symm hb, hn]⟩

/-- The trailing fragment starts after the last `'$'` (R90). -/
theorem trailStart_append {front fragment : Bytes} (hf : dollar ∉ fragment)
    (hd : front = [] ∨ front.getLast? = some dollar) :
    trailStart (front ++ fragment) = front.length := by
  have hfr : ∀ b ∈ fragment.reverse, (b != dollar) = true := by
    intro b hb
    simp only [bne_iff_ne, ne_eq]
    rintro rfl
    exact hf (by simpa using hb)
  have htake : ((front ++ fragment).reverse.takeWhile (· != dollar)).length = fragment.length := by
    rw [List.reverse_append, List.takeWhile_append_of_pos hfr]
    rcases hd with rfl | hd
    · simp
    · obtain ⟨ys, rfl⟩ := List.getLast?_eq_some_iff.1 hd
      simp
  rw [trailStart, htake]
  simp

/-- SER_EXTRACT changes `acc` and the telemetry registers only. -/
theorem serExtract_eq (s : State) :
    (serExtract s).state =
      { s with
        acc := (serExtract s).state.acc
        telemValue := (serExtract s).state.telemValue
        telemValid := (serExtract s).state.telemValid } := by
  unfold serExtract
  cases firstDollar s.acc with
  | none => rfl
  | some j => simp only; cases decodeBody s.cfg.hexScope (s.acc.take j) <;> rfl

@[simp] theorem serExtract_disc (s : State) : (serExtract s).state.disc = s.disc := by
  rw [serExtract_eq]
@[simp] theorem serExtract_slot (s : State) : (serExtract s).state.slot = s.slot := by
  rw [serExtract_eq]
@[simp] theorem serExtract_brightness (s : State) : (serExtract s).state.brightness = s.brightness := by
  rw [serExtract_eq]
@[simp] theorem serExtract_buf (s : State) : (serExtract s).state.buf = s.buf := by
  rw [serExtract_eq]
@[simp] theorem serExtract_lastOutcome (s : State) : (serExtract s).state.lastOutcome = s.lastOutcome := by
  rw [serExtract_eq]
@[simp] theorem serExtract_cfg (s : State) : (serExtract s).state.cfg = s.cfg := by
  rw [serExtract_eq]
@[simp] theorem serExtract_inbox (s : State) : (serExtract s).state.inbox = s.inbox := by
  rw [serExtract_eq]
@[simp] theorem serExtract_i2cIn (s : State) : (serExtract s).state.i2cIn = s.i2cIn := by
  rw [serExtract_eq]
@[simp] theorem serExtract_freshDraws (s : State) : (serExtract s).state.freshDraws = s.freshDraws := by
  rw [serExtract_eq]
@[simp] theorem serExtract_responses (s : State) : (serExtract s).state.responses = s.responses := by
  rw [serExtract_eq]
@[simp] theorem serExtract_i2cReads (s : State) : (serExtract s).state.i2cReads = s.i2cReads := by
  rw [serExtract_eq]
@[simp] theorem serExtract_ledFrames (s : State) : (serExtract s).state.ledFrames = s.ledFrames := by
  rw [serExtract_eq]

/-- With no frame queued SER_EXTRACT does nothing (R93). -/
theorem serExtract_none {s : State} (h : dollar ∉ s.acc) : serExtract s = complete s .serNoFrame 0 [] := by
  rw [serExtract, firstDollar_eq_none.2 h]

/-- With a frame queued SER_EXTRACT removes it (R93). -/
theorem serExtract_acc {s : State} {body rest : Bytes} (h : s.acc = body ++ dollar :: rest)
    (hb : dollar ∉ body) : (serExtract s).state.acc = rest := by
  have hdrop : (body ++ dollar :: rest).drop (body.length + 1) = rest := by
    rw [← List.drop_drop, List.drop_left, List.drop_one, List.tail_cons]
  unfold serExtract
  rw [h, firstDollar_append hb]
  simp only
  cases decodeBody s.cfg.hexScope ((body ++ dollar :: rest).take body.length) <;> exact hdrop

/-- Only an accepted frame writes the telemetry registers (R89, R97). -/
theorem serExtract_telem (s : State) :
    ((serExtract s).state.telemValue = s.telemValue ∧ (serExtract s).state.telemValid = s.telemValid ∧
        (serExtract s).response.outcome ≠ .serFrameOk) ∨
      ∃ v, (serExtract s).state.telemValue = telem v ∧ (serExtract s).state.telemValid = true ∧
        (serExtract s).response.outcome = .serFrameOk := by
  unfold serExtract
  cases firstDollar s.acc with
  | none => simp [complete]
  | some j =>
    simp only
    cases decodeBody s.cfg.hexScope (s.acc.take j) with
    | accept v => exact .inr ⟨v, rfl, rfl, rfl⟩
    | badTag => simp [complete, reject]
    | badLength => simp [complete, reject]
    | badHex => simp [complete, reject]

/-- A pass of the drain loop shortens a queue that holds a frame (R95). -/
theorem serExtract_shorter {s : State} (h : dollar ∈ s.acc) :
    (serExtract s).state.acc.length < s.acc.length := by
  obtain ⟨body, rest, hs, hb⟩ := exists_first_frame h
  rw [serExtract_acc hs hb, hs]
  simp only [List.length_append, List.length_cons]
  omega

/-- The drain loop changes `acc` and the telemetry registers only. -/
theorem drainLoop_eq (fuel : Nat) (s : State) (n a : Nat) :
    (drainLoop fuel s n a).1 =
      { s with
        acc := (drainLoop fuel s n a).1.acc
        telemValue := (drainLoop fuel s n a).1.telemValue
        telemValid := (drainLoop fuel s n a).1.telemValid } := by
  induction fuel generalizing s n a with
  | zero => rfl
  | succ fuel ih =>
    rw [drainLoop]
    cases firstDollar s.acc with
    | none => rfl
    | some j =>
      simp only
      rw [ih]
      simp only [serExtract_disc, serExtract_slot, serExtract_brightness, serExtract_buf,
        serExtract_lastOutcome, serExtract_cfg, serExtract_inbox, serExtract_i2cIn,
        serExtract_freshDraws, serExtract_responses, serExtract_i2cReads, serExtract_ledFrames]

/-- Enough fuel ends the drain loop with no frame queued: the loop of R95 is run to its end. -/
theorem drainLoop_no_dollar {fuel : Nat} {s : State} (h : s.acc.length ≤ fuel) (n a : Nat) :
    dollar ∉ (drainLoop fuel s n a).1.acc := by
  induction fuel generalizing s n a with
  | zero =>
    have : s.acc = [] := List.length_eq_zero_iff.1 (by omega)
    simp [drainLoop, this]
  | succ fuel ih =>
    rw [drainLoop]
    cases hd : firstDollar s.acc with
    | none => exact firstDollar_eq_none.1 hd
    | some j =>
      have hm : dollar ∈ s.acc := by
        by_contra hm
        rw [firstDollar_eq_none.2 hm] at hd
        cases hd
      exact ih (by have := serExtract_shorter hm; omega) _ _

/-- What an invariant needs of the drain loop: it holds after if every SER_EXTRACT keeps it. -/
theorem drainLoop_keeps {P : State → Prop} (hP : ∀ s, P s → P (serExtract s).state) (fuel : Nat) {s : State}
    (hs : P s) (n a : Nat) : P (drainLoop fuel s n a).1 := by
  induction fuel generalizing s n a with
  | zero => exact hs
  | succ fuel ih =>
    rw [drainLoop]
    cases firstDollar s.acc with
    | none => exact hs
    | some j => exact ih (hP s hs) _ _

end Sys2Proof.Machine
end

