-- ==== Sys2Proof/Laws/Exec.lean ====
section
/-!
SUPPORT. What a command and a step can do, said once: the effect of a command, and the cases of a step.
-/
namespace Sys2Proof.Machine

/-- The family rule of a command: its effect before the skeleton's end (30_encoding.md R67). -/
def effectOf (i : Instr) (s : State) : Effect :=
  match i with
  | .nop => complete s .ok 0 []
  | .regRead reg => regRead reg s
  | .serFeed b => serFeed b s
  | .serExtract => serExtract s
  | .serDrain => serDrain s
  | .aiPoll => aiPoll s
  | .aiTake => aiTake s
  | .pixSet idx col => pixSet idx col s
  | .pixSetRgb idx r g b => pixWrite idx r g b s
  | .pixClear => pixClear s
  | .pixBright level => pixBright level s
  | .pixShow => pixShow s
  | .pixRead off => pixRead off s

/-- Every command is its family rule and then the skeleton's end (R67). -/
theorem exec_eq (i : Instr) (s : State) : exec i s = .next (effectOf i s).respond := by
  cases i <;> rfl

/-- A command that answers a next state answers its effect's. -/
theorem exec_next {i : Instr} {s t : State} (h : exec i s = .next t) : t = (effectOf i s).respond := by
  rw [exec_eq] at h
  exact (Host.Outcome.next.inj h).symm

/-- The four things a step can be (30_encoding.md R67, 70_reset_and_hazards.md R192): idle, a reset, an
ILLEGAL word, a command. -/
theorem step_cases {s t : State} (h : step s = .next t) :
    (s.inbox = [] ∧ t = s) ∨
    (∃ rest, s.inbox = .reset :: rest ∧ t = ({ s with inbox := rest } : State).resetInput) ∨
    (∃ w rest e, s.inbox = .command w :: rest ∧ decode w = .error e ∧
      t = (illegal { s with inbox := rest }).respond) ∨
    ∃ w rest i, s.inbox = .command w :: rest ∧ decode w = .ok i ∧
      t = (effectOf i { s with inbox := rest }).respond := by
  unfold step nextInput at h
  cases hi : s.inbox with
  | nil =>
    rw [hi] at h
    exact .inl ⟨rfl, (Host.Outcome.next.inj h).symm⟩
  | cons x rest =>
    rw [hi] at h
    cases x with
    | reset => exact .inr (.inl ⟨rest, rfl, (Host.Outcome.next.inj h).symm⟩)
    | command w =>
      simp only [execWord] at h
      cases hd : decode w with
      | error e =>
        rw [hd] at h
        exact .inr (.inr (.inl ⟨w, rest, e, rfl, hd, (Host.Outcome.next.inj h).symm⟩))
      | ok i =>
        rw [hd] at h
        exact .inr (.inr (.inr ⟨w, rest, i, rfl, hd, exec_next h⟩))

/-- REG_READ changes nothing before it answers (43_control.md R152). -/
@[simp] theorem regRead_state (reg : BitVec 8) (s : State) : (regRead reg s).state = s := by
  unfold regRead
  cases regValue s reg <;> rfl

/-- PIX_READ changes nothing before it answers (42_pixel_codec.md R140). -/
@[simp] theorem pixRead_state (off : BitVec 32) (s : State) : (pixRead off s).state = s := by
  unfold pixRead
  split <;> rfl

/-- SER_FEED changes `acc` and `disc` only (40_serial_framer.md R91). -/
theorem serFeed_eq (b : BitVec 8) (s : State) :
    (serFeed b s).state =
      { s with acc := (serFeed b s).state.acc, disc := (serFeed b s).state.disc } := by
  unfold serFeed
  split
  · split <;> rfl
  · split <;> rfl

/-- A pixel write changes the buffer only (42_pixel_codec.md R132). -/
theorem pixWrite_eq (idx : BitVec 16) (r g b : Byte) (s : State) :
    (pixWrite idx r g b s).state = { s with buf := (pixWrite idx r g b s).state.buf } := by
  rcases pixWrite_cases idx r g b s with ⟨-, h⟩ | ⟨-, h⟩ | ⟨-, h⟩ <;> rw [h]
  · exact place_eq _ _ _ _ _
  · exact placeFirst_eq _ _ _ _ _
  · rfl

/-- No command's rule writes a parameter, the host's inputs or the responses: the skeleton alone appends
one (00_scope.md R6, 30_encoding.md R67). -/
theorem effectOf_frame (i : Instr) (s : State) :
    (effectOf i s).state.cfg = s.cfg ∧ (effectOf i s).state.inbox = s.inbox ∧
      (effectOf i s).state.responses = s.responses := by
  cases i with
  | nop => exact ⟨rfl, rfl, rfl⟩
  | regRead reg => simp [effectOf]
  | serFeed b => rw [effectOf, serFeed_eq]; exact ⟨rfl, rfl, rfl⟩
  | serExtract => rw [effectOf, serExtract_eq]; exact ⟨rfl, rfl, rfl⟩
  | serDrain =>
    simp only [effectOf, serDrain, complete_state, drained]
    rw [drainLoop_eq]
    exact ⟨rfl, rfl, rfl⟩
  | aiPoll =>
    rcases aiPoll_cases s with h | ⟨len, -, -, h | ⟨i, -, h⟩ | ⟨t, -, h⟩⟩ <;> rw [effectOf, h] <;>
      exact ⟨rfl, rfl, rfl⟩
  | aiTake => rw [effectOf, aiTake_state]; exact ⟨rfl, rfl, rfl⟩
  | pixSet idx col => rw [effectOf, pixSet, pixWrite_eq]; exact ⟨rfl, rfl, rfl⟩
  | pixSetRgb idx r g b => rw [effectOf, pixWrite_eq]; exact ⟨rfl, rfl, rfl⟩
  | pixClear =>
    simp only [effectOf, pixClear, complete_state]
    rw [zeroActive_eq]
    exact ⟨rfl, rfl, rfl⟩
  | pixBright level => exact ⟨rfl, rfl, rfl⟩
  | pixShow => exact ⟨rfl, rfl, rfl⟩
  | pixRead off => simp [effectOf]

end Sys2Proof.Machine
end

