-- ==== Sys2Proof/Laws/PerInstr.lean ====
section
/-!
SUPPORT. Statements about every command as syntax, proved command by command: its word matches its own row
of opcode_table.json (30_encoding.md R68).
-/
namespace Sys2Proof.Laws.MatchesTableRow

/-- The word of `i` matches the row of opcode_table.json with its mnemonic. -/
def Statement (i : Instr) : Prop :=
  ∃ row ∈ opcodeTable, row.mnemonic = mnemonicOf i ∧ encode i &&& row.mask = row.matchBits

theorem nop : Statement .nop :=
  ⟨⟨"NOP", 0x0000000000000000#64, 0xFFFFFFFFFFFFFFFF#64⟩, by decide, rfl, by decide⟩

theorem regRead (reg : BitVec 8) : Statement (.regRead reg) :=
  ⟨⟨"REG_READ", 0x0100000000000000#64, 0xFFFFFFFFFFFFFF00#64⟩, by decide, rfl, formatB_and_mask _ _⟩

theorem serFeed (b : BitVec 8) : Statement (.serFeed b) :=
  ⟨⟨"SER_FEED", 0x1000000000000000#64, 0xFFFFFFFFFFFFFF00#64⟩, by decide, rfl, formatB_and_mask _ _⟩

theorem serExtract : Statement .serExtract :=
  ⟨⟨"SER_EXTRACT", 0x1100000000000000#64, 0xFFFFFFFFFFFFFFFF#64⟩, by decide, rfl, by decide⟩

theorem serDrain : Statement .serDrain :=
  ⟨⟨"SER_DRAIN", 0x1200000000000000#64, 0xFFFFFFFFFFFFFFFF#64⟩, by decide, rfl, by decide⟩

theorem aiPoll : Statement .aiPoll :=
  ⟨⟨"AI_POLL", 0x2000000000000000#64, 0xFFFFFFFFFFFFFFFF#64⟩, by decide, rfl, by decide⟩

theorem aiTake : Statement .aiTake :=
  ⟨⟨"AI_TAKE", 0x2100000000000000#64, 0xFFFFFFFFFFFFFFFF#64⟩, by decide, rfl, by decide⟩

theorem pixSet (idx : BitVec 16) (col : BitVec 8) : Statement (.pixSet idx col) :=
  ⟨⟨"PIX_SET", 0x3000000000000000#64, 0xFFFF0000FFFFFF00#64⟩, by decide, rfl, formatIC_and_mask _ _ _⟩

theorem pixSetRgb (idx : BitVec 16) (r g b : BitVec 8) : Statement (.pixSetRgb idx r g b) :=
  ⟨⟨"PIX_SET_RGB", 0x3100000000000000#64, 0xFFFF0000FF000000#64⟩, by decide, rfl,
    formatIRGB_and_mask _ _ _ _ _⟩

theorem pixClear : Statement .pixClear :=
  ⟨⟨"PIX_CLEAR", 0x3200000000000000#64, 0xFFFFFFFFFFFFFFFF#64⟩, by decide, rfl, by decide⟩

theorem pixBright (level : BitVec 8) : Statement (.pixBright level) :=
  ⟨⟨"PIX_BRIGHT", 0x3300000000000000#64, 0xFFFFFFFFFFFFFF00#64⟩, by decide, rfl, formatB_and_mask _ _⟩

theorem pixShow : Statement .pixShow :=
  ⟨⟨"PIX_SHOW", 0x3400000000000000#64, 0xFFFFFFFFFFFFFFFF#64⟩, by decide, rfl, by decide⟩

theorem pixRead (off : BitVec 32) : Statement (.pixRead off) :=
  ⟨⟨"PIX_READ", 0x3500000000000000#64, 0xFFFFFFFF00000000#64⟩, by decide, rfl, formatW_and_mask _ _⟩

end Sys2Proof.Laws.MatchesTableRow
end

