-- ==== Sys2Proof/Tests/Slice0.lean ====
section
/-!
SUPPORT. The implementer's own tests: decoding of words written out from 30_encoding.md, the refusals of
WellFormed.lean, vectors of 95_test_vectors.md run for one step, and for every statement with hypotheses
a concrete state and operands that meet them.
-/
namespace Sys2Proof.Tests

open Sys2Proof.Machine Sys2Proof.Claims

/-- The reference configuration K0 of 95_test_vectors.md. -/
def k0 : Config where
  syncWord := 0xAA55#16
  aiAddr := 0x42#7
  statusNames := [[0x69#8, 0x64#8], [0x62#8], [0x64#8], [0x65#8]]
  colorTable := [(5#8, 0xFF0000#24)]
  bufPixels := 4#16
  count := 4#16

/-- K0 with ACC_CAP = 8. -/
def k8 : Config := { k0 with accCap := .bounded 8, ok := by decide }

/-- V-P5's geometry: RGBW, three pixels, the active region the last two. -/
def kw : Config := { k0 with mode := .rgbw, bufPixels := 3#16, start := 1#16, count := 2#16, ok := by decide }

/-- The state after reset under K0, the transport answering `draws`. -/
def s0 (draws : List Bytes) : State := { State.resetWith k0 with i2cIn := draws }

/-- The state after reset under `c` with the accumulator `acc` and discard bit `disc`. -/
def sAcc (c : Config) (acc : Bytes) (disc : Bool) : State :=
  { State.resetWith c with acc := acc, disc := disc }

/-- The state after reset with the host's next input `x`. -/
def sIn (c : Config) (x : HostInput) : State := { State.resetWith c with inbox := [x] }

/-- What a test looks at in an answer; nothing where there is no next state. -/
def seen {α : Type} (f : State → α) : Host.Outcome State Fault Refusal → Option α
  | .next t => some (f t)
  | .fault _ => none
  | .refused _ => none

/-- The last response: outcome code, value, text. -/
def answer (t : State) : Option (Nat × Nat × Bytes) :=
  t.responses.getLast?.map fun r => (r.outcome.byte.toNat, r.value.toNat, r.text)

/-! ### Decoding: words from 30_encoding.md R63, R69 and 95_test_vectors.md V-D1 -/

theorem test_decode_nop : decode 0x0000000000000000#64 = .ok .nop := by decide
theorem test_decode_regRead : decode 0x010000000000000D#64 = .ok (.regRead 0x0D#8) := by decide
theorem test_decode_serFeed : decode 0x1000000000000041#64 = .ok (.serFeed 0x41#8) := by decide
theorem test_decode_serExtract : decode 0x1100000000000000#64 = .ok .serExtract := by decide
theorem test_decode_serDrain : decode 0x1200000000000000#64 = .ok .serDrain := by decide
theorem test_decode_aiPoll : decode 0x2000000000000000#64 = .ok .aiPoll := by decide
theorem test_decode_aiTake : decode 0x2100000000000000#64 = .ok .aiTake := by decide
theorem test_decode_pixSet : decode 0x3000000200000005#64 = .ok (.pixSet 2#16 5#8) := by decide
theorem test_decode_pixSetRgb :
    decode 0x3100FFFF00010203#64 = .ok (.pixSetRgb 0xFFFF#16 1#8 2#8 3#8) := by decide
theorem test_decode_pixClear : decode 0x3200000000000000#64 = .ok .pixClear := by decide
theorem test_decode_pixBright : decode 0x3300000000000080#64 = .ok (.pixBright 0x80#8) := by decide
theorem test_decode_pixShow : decode 0x3400000000000000#64 = .ok .pixShow := by decide
theorem test_decode_pixRead : decode 0x35000000FFFFFFFF#64 = .ok (.pixRead 0xFFFFFFFF#32) := by decide

/-- Reserved bits and OPCODEs: V-D1's ILLEGAL words, one for each format and three unassigned. -/
theorem test_decode_illegal :
    [0x0000000000000001#64, 0x0001000000000000#64, 0x0100000000000100#64, 0x3000000200000105#64,
      0x3100000101FF8000#64, 0x3500000100000000#64, 0x1300000000000000#64, 0x3600000000000000#64,
      0xFF00000000000000#64].all (fun w => (decode w).toOption.isNone) = true := by decide

theorem test_decodeTableWord : decodeTableWord 64 0x3100000100FF8000 = some (.pixSetRgb 1#16 255#8 128#8 0#8) := by
  decide

/-- The bytes of a word on the link, most significant first (R84). -/
theorem test_decodeBytes : decodeBytes [0x10#8, 0#8, 0#8, 0#8, 0#8, 0#8, 0#8, 0x24#8, 0x99#8] =
    .ok (.serFeed 0x24#8, [0x99#8]) := by decide

/-! ### Well-formedness: one ill-formed term for each check -/

theorem test_wf_accCap : checkConfig { k0.toParams with accCap := .bounded 7 } = .error [.accCap] := by decide
theorem test_wf_region : checkConfig { k0.toParams with start := 1#16 } = .error [.region] := by decide
theorem test_wf_status :
    checkConfig { k0.toParams with statusNames := List.replicate 257 [] } = .error [.status] := by
  decide +kernel
theorem test_wf_maxLen : checkConfig { k0.toParams with maxLen := 8193#16 } = .error [.maxLen] := by decide
theorem test_wf_accepts : (checkConfig k0.toParams).toOption = some k0 := by decide

/-- The two conditions of R7 that the fields' own widths already give refuse nothing. -/
theorem test_wf_widths (p : Params) : p.offsetsOk = true ∧ p.sentinelOk = true := by
  have hb := p.bufPixels.isLt
  have hc := p.count.isLt
  have hs : p.stride ≤ 4 := by unfold Params.stride; cases p.mode <;> decide
  have hm : p.bufPixels.toNat * p.stride ≤ p.bufPixels.toNat * 4 := Nat.mul_le_mul_left _ hs
  simp only [Params.offsetsOk, Params.sentinelOk, decide_eq_true_eq]
  omega

theorem test_operand_refused : toField 8 256 = none ∧ toField 8 255 = some 255#8 := by decide

/-! ### One step of each command (vectors of 95_test_vectors.md, at the place named) -/

/-- P1, V-S5: append; the first byte past the cap. -/
theorem test_serFeed_append :
    seen (fun t => (t.acc, answer t)) (exec (.serFeed 0x32#8) (sAcc k0 [0x41#8, 0x31#8] false)) =
      some ([0x41#8, 0x31#8, 0x32#8], some (0x10, 3, [])) := by decide
theorem test_serFeed_overflow_keeps_frames :
    seen (fun t => (t.acc, t.disc, answer t)) (exec (.serFeed 0x59#8)
      (sAcc k8 [0x41#8, 0x30#8, 0x30#8, 0x30#8, 0x30#8, 0x30#8, 0x24#8, 0x58#8] false)) =
      some ([0x41#8, 0x30#8, 0x30#8, 0x30#8, 0x30#8, 0x30#8, 0x24#8], true, some (0x11, 1, [])) := by decide

/-- V-S3, sixth row: "A0000FF$xy"; and "A12345g$" is BAD_HEX. -/
theorem test_serExtract_accepts :
    seen (fun t => (t.acc, t.telemValid, answer t)) (exec .serExtract
      (sAcc k0 [0x41#8, 0x30#8, 0x30#8, 0x30#8, 0x30#8, 0x46#8, 0x46#8, 0x24#8, 0x78#8, 0x79#8] false)) =
      some ([0x78#8, 0x79#8], true, some (0x14, 20051, [])) := by decide
theorem test_serExtract_bad_hex :
    seen (fun t => (t.acc, t.telemValid, answer t)) (exec .serExtract
      (sAcc k0 [0x41#8, 0x31#8, 0x32#8, 0x33#8, 0x34#8, 0x35#8, 0x67#8, 0x24#8] false)) =
      some ([], false, some (0x17, 7, [])) := by decide

/-- Two frames, the first malformed, and a fragment (as V-S4). -/
theorem test_serDrain :
    seen (fun t => (t.acc, t.telemValue, answer t)) (exec .serDrain
      (sAcc k0 [0x78#8, 0x24#8, 0x41#8, 0x30#8, 0x30#8, 0x30#8, 0x30#8, 0x38#8, 0x30#8, 0x24#8, 0x41#8] false)) =
      some ([0x41#8], 10065#16, some (0x00, 0x00010002, [])) := by decide

/-- V-A1: a status frame with an excess byte in each read; a bad checksum. -/
theorem test_aiPoll_status :
    seen (fun t => (t.slot, answer t))
      (exec .aiPoll (s0 [[0xAA#8, 0x55#8, 0#8, 1#8, 0x77#8], [3#8, 3#8, 0x55#8]])) =
      some (.status 3#8, some (0x20, 3, [])) := by decide
theorem test_aiPoll_bad_checksum :
    seen (fun t => (t.slot, answer t))
      (exec .aiPoll (s0 [[0xAA#8, 0x55#8, 0#8, 1#8], [2#8, 3#8]])) =
      some (.empty, some (0x26, 0x0203, [])) := by decide

/-- V-A5: Status(2). -/
theorem test_aiTake :
    seen (fun t => (t.slot, answer t)) (exec .aiTake { s0 [] with slot := .status 2#8 }) =
      some (.empty, some (0x00, 0x0201, [0x64#8])) := by decide

/-- R132's example: COLOR_TABLE(5) = 0xFF0000 at pixel 2 of GRB. -/
theorem test_pixSet :
    seen (fun t => (t.buf, answer t)) (exec (.pixSet 2#16 5#8) (s0 [])) =
      some ([(7, 0xFF#8)], some (0x30, 2, [])) := by decide

/-- R133's example, and V-P5's sentinel in RGBW at an offset. -/
theorem test_pixSetRgb_dimmed :
    seen (fun t => (t.buf, answer t))
      (exec (.pixSetRgb 0#16 255#8 128#8 0#8) { s0 [] with brightness := 128#8 }) =
      some ([(0, 0x40#8), (1, 0x7F#8)], some (0x30, 0, [])) := by decide
theorem test_pixSetRgb_all_rgbw :
    seen (fun t => (t.buf, answer t))
      (exec (.pixSetRgb 2#16 10#8 20#8 30#8) { State.resetWith kw with brightness := 200#8 }) =
      some ([(4, 0x0F#8), (5, 7#8), (6, 0x17#8), (8, 0x0F#8), (9, 7#8), (10, 0x17#8)],
        some (0x31, 2, [])) := by decide

/-- V-P6 in RGBW: bytes outside the active region stay and are emitted. -/
theorem test_pixClear :
    seen (fun t => (t.buf, t.ledFrames.map (·.take 6))) (exec .pixClear
      { State.resetWith kw with buf := [(1, 9#8), (5, 9#8), (11, 9#8)] }) =
      some ([(1, 9#8)], [[0#8, 9#8, 0#8, 0#8, 0#8, 0#8]]) := by decide

theorem test_pixBright :
    seen (fun t => (t.brightness, t.buf)) (exec (.pixBright 128#8) { s0 [] with buf := [(0, 0x64#8)] }) =
      some (128#8, [(0, 0x64#8)]) := by decide

/-- V-P8. -/
theorem test_pixShow : seen (fun t => (answer t, t.ledFrames)) (exec .pixShow (s0 [])) =
    some (some (0x00, 12, []), [List.replicate 12 0#8]) := by decide
theorem test_pixRead_range :
    seen answer (exec (.pixRead 11#32) (s0 [])) = some (some (0x00, 0, [])) ∧
    seen answer (exec (.pixRead 12#32) (s0 [])) = some (some (0x33, 0, [])) := by decide

/-- V-D2 and V-D3. -/
theorem test_regRead_values :
    ([0x00#8, 0x06#8, 0x07#8, 0x08#8, 0x09#8, 0x0A#8, 0x0B#8, 0x0C#8].map fun r => regValue (s0 []) r) =
      [0xFF#32, 4#32, 0x00030004#32, 0x2000AA55#32, 0x00040042#32, 0#32, 0x494F5401#32, 0#32].map some := by
  decide
theorem test_regRead_lastOutcome :
    seen (fun t => (t.lastOutcome, answer t)) (exec (.regRead 5#8) { s0 [] with lastOutcome := .serNoFrame }) =
      some (.ok, some (0x00, 0x13, [])) := by decide

theorem test_nop : seen (fun t => (t.lastOutcome, answer t)) (exec .nop { s0 [] with lastOutcome := .illegal }) =
    some (.ok, some (0x00, 0, [])) := by decide

/-- V-D1: an ILLEGAL word through the step. -/
theorem test_step_illegal :
    seen (fun t => (t.lastOutcome, t.acc, answer t)) (step (sIn k0 (.command 0x1000000000000141#64))) =
      some (.illegal, [], some (0x01, 0, [])) := by decide

/-- V-S1: the exact half at 150, and C5's 0xA5. -/
theorem test_telem : telem 150#8 = 11795#16 ∧ telem 0xA5#8 = 12974#16 := by decide

/-- R78, R79: text to words; R81's escape. -/
theorem test_assemble_text :
    assembleText k0 "PIX_SET_RGB ALL, 0x01,2, 'A'".toList = some [0x3100000400010241#64] ∧
    assembleText k0 "PIX_BRIGHT 256".toList = none := by decide
theorem test_disassemble_text :
    disassembleText 0x3100000100FF8000#64 = "PIX_SET_RGB 1, 255, 128, 0".toList := by decide

/-! ### Witnesses: the hypotheses of each statement can be met together -/

/-- The reset state under any configuration meets the invariant. -/
theorem inv_k8 : (sIn k8 (.command 0x1000000000000041#64)).Inv :=
  ⟨by decide, by decide, by decide, by decide, ⟨0#8, by decide⟩, by decide, trivial⟩

theorem test_witness_DecodeAgreesWithOpcodeTable :
    decode 0x0100000000000001#64 = .ok (.regRead 1#8) ∧
    ⟨"REG_READ", 0x0100000000000000#64, 0xFFFFFFFFFFFFFF00#64⟩ ∈ opcodeTable ∧
    0x0100000000000001#64 &&& 0xFFFFFFFFFFFFFF00#64 = 0x0100000000000000#64 := by decide

theorem test_witness_ByteLinkCarriesWordsAndResponses : ([1#8, 2#8, 3#8, 4#8, 5#8, 6#8, 7#8] : Bytes).length < 8 := by
  decide

theorem test_witness_PseudoCommandsExpand : 256 ≤ 256 ∧ 65536 ≤ 65536 ∧ 2 ^ 32 ≤ 2 ^ 32 := by decide

theorem test_witness_StepRunsTheDecodedCommand :
    (sIn k0 (.command 0x1100000000000000#64)).inbox = .command 0x1100000000000000#64 :: [] ∧
    decode 0x1100000000000000#64 = .ok .serExtract := by decide

theorem test_witness_IllegalWordOnlyRecordsItsOutcome :
    (sIn k0 (.command 0x1300000000000000#64)).inbox = .command 0x1300000000000000#64 :: [] ∧
    ∀ i, encode i ≠ 0x1300000000000000#64 := by
  refine ⟨rfl, fun i h => ?_⟩
  have h' := congrArg opcodeField h
  cases i <;>
    simp only [encode, opcodeField_formatN, opcodeField_formatB, opcodeField_formatIC,
      opcodeField_formatIRGB, opcodeField_formatW] at h' <;>
    revert h' <;> decide

theorem test_witness_ResetInputRestoresResetState : (sIn k0 .reset).inbox = .reset :: [] := rfl

theorem test_witness_IdleStepHoldsState : (s0 []).inbox = [] := rfl

theorem test_witness_CommandsRunInIssueOrder :
    ({ s0 [] with inbox := [.command 0x3300000000000080#64, .command 0x3400000000000000#64] } : State).inbox =
      [Instr.pixBright 0x80#8, .pixShow].map (fun i => .command (encode i)) := by decide

theorem test_witness_EveryCommandRecordsItsOutcome : Instr.pixShow ≠ .aiTake := by decide

theorem test_witness_IllFormedConfigurationHasNoRuns :
    (((∀ n, k8.toParams.accCap = .bounded n → 8 ≤ n) ∧
        k8.start.toNat + k8.count.toNat ≤ k8.bufPixels.toNat ∧
        k8.bufPixels.toNat * (if k8.mode = .rgbw then 4 else 3) ≤ 2 ^ 32 ∧ k8.count.toNat ≤ 65535 ∧
        k8.statusNames.length ≤ 256 ∧ k8.maxLen.toNat = 8192)) ∧
    ¬(∀ n, ({ k0.toParams with accCap := .bounded 7 } : Params).accCap = .bounded n → 8 ≤ n) := by
  refine ⟨⟨fun n h => ?_, by decide, by decide, by decide, by decide, by decide⟩, fun h => ?_⟩
  · cases h; decide
  · exact absurd (h 7 rfl) (by decide)

theorem test_witness_ResetValues :
    (State.reset = State.reset ∨ ∃ c : Config, State.reset = State.resetWith c) ∧
      ∃ c : Config, State.resetWith k0 = State.resetWith c := ⟨.inl rfl, k0, rfl⟩

theorem test_witness_NoStepChangesParameters :
    (∃ t, exec (.pixBright 3#8) (s0 []) = .next t) ∧ ∃ t, step (sIn k0 .reset) = .next t :=
  ⟨⟨_, rfl⟩, ⟨_, rfl⟩⟩

theorem test_witness_StepKeepsInvariant :
    (sIn k8 (.command 0x1000000000000041#64)).Inv ∧
    ∃ t, step (sIn k8 (.command 0x1000000000000041#64)) = .next t ∧ t.acc = [0x41#8] :=
  ⟨inv_k8, _, rfl, by decide⟩

theorem test_witness_NoCommandWritesOutsideActiveRegion :
    (State.resetWith kw).buf.wf ∧ ¬activeOffset kw 3 ∧ activeOffset kw 4 ∧ activeOffset kw 11 ∧
      ¬activeOffset kw 12 := by decide

theorem test_witness_StepKeepsUnwrittenBytesDark :
    (sIn kw (.command 0x3100000200010203#64)).Inv ∧
    (sIn kw (.command 0x3100000200010203#64)).OutsideDark ∧
    (sIn kw (.command 0x3100000200010203#64)).WhiteDark ∧
    ∃ t, step (sIn kw (.command 0x3100000200010203#64)) = .next t ∧ t.buf.length = 6 :=
  ⟨⟨by decide, by decide, by decide, by decide, ⟨0#8, by decide⟩, by decide, trivial⟩, fun _ _ => rfl,
    fun _ _ => rfl, _, rfl, by decide⟩

theorem test_witness_StepKeepsPortBounds :
    (sIn k0 (.command 0x2000000000000000#64)).ReadsBounded ∧
    (sIn k0 (.command 0x2000000000000000#64)).FramesWhole ∧
    ∃ t, step (sIn k0 (.command 0x2000000000000000#64)) = .next t ∧ t.i2cReads.head?.map (·.count) = some 4 := by
  refine ⟨fun r h => absurd h (by simp [sIn, State.resetWith]),
    fun f h => absurd h (by simp [sIn, State.resetWith]), _, rfl, ?_⟩
  rcases aiPoll_cases { sIn k0 (.command 0x2000000000000000#64) with inbox := [] } with
    h | ⟨len, -, -, h | ⟨i, -, h⟩ | ⟨t, -, h⟩⟩ <;>
    simp only [Effect.respond_i2cReads] <;> rw [h] <;> rfl

theorem test_witness_SerialCommandsAreIndependent :
    isSerial (.serFeed 1#8) ∧ ({ s0 [] with brightness := 0#8, slot := .status 1#8 } : State).cfg = (s0 []).cfg ∧
    serialView { s0 [] with brightness := 0#8, slot := .status 1#8 } = serialView (s0 []) :=
  ⟨.inr (.inr ⟨_, rfl⟩), rfl, rfl⟩

theorem test_witness_AiCommandsAreIndependent :
    isAi .aiPoll ∧ ({ s0 [] with brightness := 0#8, acc := [1#8] } : State).cfg = (s0 []).cfg ∧
    ({ s0 [] with brightness := 0#8, acc := [1#8] } : State).slot = (s0 []).slot ∧
    transportView { s0 [] with brightness := 0#8, acc := [1#8] } = transportView (s0 []) :=
  ⟨.inl rfl, rfl, rfl, rfl⟩

theorem test_witness_PixelCommandsAreIndependent :
    isPixel (.pixRead 3#32) ∧ ({ s0 [] with acc := [1#8] } : State).cfg = (s0 []).cfg ∧
    pixelView { s0 [] with acc := [1#8] } = pixelView (s0 []) ∧
    ({ s0 [] with acc := [1#8] } : State).ledFrames = (s0 []).ledFrames :=
  ⟨.inr (.inr (.inr (.inl ⟨_, rfl⟩))), rfl, rfl, rfl⟩

theorem test_witness_NopDoesNothing :
    (0x0000000000000001#64).extractLsb' 56 8 = 0#8 ∧ 0x0000000000000001#64 ≠ 0#64 := by decide

theorem test_witness_RegReadReturnsTheRegister :
    (0x0C#8).toNat ≤ 0x0C ∧ (0x00#8).toNat ≤ 0x0C ∧ 0x0C < (0x0D#8).toNat ∧ 0x0C < (0xFF#8).toNat := by decide

theorem test_witness_RegisterFields :
    0x06 ≤ (0x06#8).toNat ∧ (0x06#8).toNat ≤ 0x0C ∧ 0x06 ≤ (0x0C#8).toNat ∧ (0x0C#8).toNat ≤ 0x0C := by decide

theorem test_witness_ReadsRepeatTheirValue : ∃ reg : BitVec 8, Instr.regRead 4#8 = .regRead reg ∧ reg ≠ 0x05#8 :=
  ⟨4#8, rfl, by decide⟩

/-- Each clause of SER_FEED: discard mode, the last byte with room, the first without. -/
theorem test_witness_SerFeedCases :
    (sAcc k8 [] true).disc = true ∧
    ((sAcc k8 (List.replicate 7 0x41#8) false).disc = false ∧
      ∀ n, k8.accCap = .bounded n → (sAcc k8 (List.replicate 7 0x41#8) false).acc.length < n) ∧
    ((sAcc k8 ([0x41#8, 0x24#8] ++ List.replicate 6 0x41#8) false).disc = false ∧
      k8.accCap = .bounded (sAcc k8 ([0x41#8, 0x24#8] ++ List.replicate 6 0x41#8) false).acc.length ∧
      dollar ∉ List.replicate 6 0x41#8 ∧ [0x41#8, 0x24#8].getLast? = some dollar) := by
  refine ⟨rfl, ⟨rfl, fun n h => ?_⟩, by decide⟩
  cases h
  decide

/-- The boundary bytes of the hex table. -/
theorem test_witness_HexDigitTable :
    [0x30#8, 0x39#8, 0x41#8, 0x46#8].map hexval = [some 0#4, some 9#4, some 10#4, some 15#4] ∧
    [0x2F#8, 0x3A#8, 0x40#8, 0x47#8, 0x61#8].map hexval = [none, none, none, none, none] := by decide

theorem test_witness_BodyDecoding :
    (0x42#8 : Byte) ≠ 0x41#8 ∧ ([0x31#8, 0x32#8, 0x33#8, 0x34#8, 0x35#8] : Bytes).length ≠ 6 ∧
    hexval 0x67#8 = none ∧ hexval 0x35#8 = some 5#4 ∧ hexval 0x36#8 = some 6#4 ∧ hexval 0x31#8 ≠ none := by decide

theorem test_witness_SerExtractTakesTheFirstFrame :
    dollar ∉ (sAcc k0 [0x41#8] false).acc ∧
    (sAcc k0 [0x41#8, 0x24#8, 0x24#8] false).acc = [0x41#8] ++ dollar :: [0x24#8] ∧
    dollar ∉ [0x41#8] := by decide

theorem test_witness_SerDrainTakesEveryFrame :
    (sAcc k0 [0x41#8, 0x24#8, 0x24#8, 0x42#8] false).acc = accOf [[0x41#8], []] [0x42#8] ∧
    (∀ b ∈ ([[0x41#8], []] : List Bytes), dollar ∉ b) ∧ dollar ∉ [0x42#8] := by decide

theorem test_witness_ChunkBoundariesDoNotMatter :
    (s0 []).cfg.accCap = .inf ∧ (s0 []).disc = false ∧
    (∀ i ∈ [Instr.serFeed 0x41#8, .serExtract, .serFeed 0x24#8], isSerial i) ∧
    [0x41#8, 0x24#8] = ([Instr.serFeed 0x41#8, .serExtract, .serFeed 0x24#8].filterMap fun i => match i with
      | .serFeed b => some b
      | _ => none) := by
  refine ⟨rfl, rfl, ?_, by decide⟩
  intro i hi
  simp only [List.mem_cons, List.not_mem_nil, or_false] at hi
  rcases hi with rfl | rfl | rfl
  · exact .inr (.inr ⟨_, rfl⟩)
  · exact .inl rfl
  · exact .inr (.inr ⟨_, rfl⟩)

theorem test_witness_OverflowNeverMakesAFrame :
    (sAcc k8 [] false).acc = [] ∧ (sAcc k8 [] false).disc = false := ⟨rfl, rfl⟩

/-- Each clause of AI_POLL: a short header; a bad sync; lengths 0 and 8193; a short body; a bad checksum; a
status index; a JSON payload. -/
theorem test_witness_AiPollRunsItsSteps :
    ((s0 [[0xAA#8, 0x55#8, 0#8]]).upcoming 0).length < 4 ∧
    ((s0 [[0x55#8, 0xAA#8, 0#8, 1#8]]).upcoming 0 = [0x55#8, 0xAA#8, 0#8, 1#8] ∧
      0x55 * 256 + 0xAA ≠ k0.syncWord.toNat) ∧
    (0xAA * 256 + 0x55 = k0.syncWord.toNat ∧ 0x00 * 256 + 0x00 = 0 ∧ 8192 < 0x20 * 256 + 0x01) ∧
    (((s0 [[0xAA#8, 0x55#8, 0x20#8, 0#8], [1#8]]).upcoming 1).length < 0x20 * 256 + 0 + 1 ∧
      0x20 * 256 + 0 ≤ 8192) ∧
    ((s0 [[0xAA#8, 0x55#8, 0#8, 1#8], [2#8, 3#8]]).upcoming 1 = [2#8] ++ 3#8 :: [] ∧
      xorFold [2#8] ≠ 3#8 ∧ xorFold [2#8] = 2#8) ∧
    ((s0 [[0xAA#8, 0x55#8, 0#8, 2#8], [1#8, 2#8, 3#8, 9#8]]).upcoming 1 = [1#8, 2#8] ++ 3#8 :: [9#8] ∧
      xorFold [1#8, 2#8] = 3#8 ∧ ([1#8, 2#8] : Bytes).length = 0 * 256 + 2) := by decide

theorem test_witness_SingleBitCorruptionIsRejected :
    (s0 [[0xAA#8, 0x55#8, 0#8, 1#8], [2#8, 0x82#8]]).upcoming 0 = [0xAA#8, 0x55#8, 0#8, 1#8] ∧
    0xAA#8 ++ 0x55#8 = k0.syncWord ∧ 1 ≤ ([2#8] : Bytes).length ∧ ([2#8] : Bytes).length ≤ 8192 ∧
    ([2#8] : Bytes).length = (0#8).toNat * 256 + (1#8).toNat ∧ 1 ≤ ([2#8] : Bytes).length ∧ 7 < 8 ∧
    (s0 [[0xAA#8, 0x55#8, 0#8, 1#8], [2#8, 0x82#8]]).upcoming 1 =
      ([2#8] ++ [xorFold [2#8]]).modify 1 (fun b => b ^^^ BitVec.ofNat 8 (2 ^ 7)) := by decide

theorem test_witness_AiTakeDeliversOnce :
    (s0 []).slot = .empty ∧ ({ s0 [] with slot := .status 3#8 } : State).slot = .status 3#8 ∧
    k0.statusNames[(3#8).toNat]? = some [0x65#8] ∧
    ({ s0 [] with slot := .json [1#8] } : State).slot = .json [1#8] := by decide

theorem test_witness_BrightnessScaler : (254#8).toNat < 255 ∧ scale 200#8 255#8 = 200#8 := by decide

/-- Each target: the last pixel, the sentinel, the first index past it. -/
theorem test_witness_PixSetRgbWritesItsTarget :
    (s0 []).buf.wf ∧ (3#16).toNat < k0.count.toNat ∧ (4#16).toNat = k0.count.toNat ∧
    k0.count.toNat < (5#16).toNat := by decide

theorem test_witness_PixSetWritesTheTableColour :
    (s0 []).buf.wf ∧ tableColour k0.colorTable 5#8 = 0xFF#8 ++ 0x00#8 ++ 0x00#8 ∧
    tableColour k0.colorTable 6#8 = 0x00#8 ++ 0x00#8 ++ 0x00#8 := by decide

theorem test_witness_PixClearZeroesAndEmits :
    ({ State.resetWith kw with buf := [(1, 9#8), (5, 9#8)] } : State).buf.wf := by decide

theorem test_witness_PixShowEmitsTheBuffer : 11 < k0.bufPixels.toNat * k0.stride := by decide

theorem test_witness_PixReadReturnsTheByte :
    (11#32).toNat < k0.bufPixels.toNat * k0.stride ∧ k0.bufPixels.toNat * k0.stride ≤ (12#32).toNat := by decide

theorem test_witness_OnlyClearAndShowEmit :
    (Instr.pixBright 1#8 ≠ .pixClear ∧ Instr.pixBright 1#8 ≠ .pixShow) ∧
      ∃ idx col, Instr.pixSet 4#16 5#8 = .pixSet idx col := ⟨by decide, _, _, rfl⟩

theorem test_witness_ClearRestoresTheResetBuffer :
    ∀ i ∈ [Instr.pixShow, .pixBright 1#8],
      i = .pixShow ∨ (∃ level, i = .pixBright level) ∨ (∃ idx col, i = .pixSet idx col) ∨
        ∃ idx r g b, i = .pixSetRgb idx r g b := by
  intro i hi
  simp only [List.mem_cons, List.not_mem_nil, or_false] at hi
  rcases hi with rfl | rfl
  · exact .inl rfl
  · exact .inr (.inl ⟨_, rfl⟩)

/-- The kernel runs every row's word from reset, whatever the chosen configuration is. -/
theorem test_reset_runs_every_row :
    ([0x0000000000000000, 0x0100000000000000, 0x1000000000000000, 0x1100000000000000, 0x1200000000000000,
      0x2000000000000000, 0x2100000000000000, 0x3000000000000000, 0x3100000000000000, 0x3200000000000000,
      0x3300000000000000, 0x3400000000000000, 0x3500000000000000].all fun w =>
      (seen (fun _ => ()) (step (State.reset.withFetchWord 64 w))).isSome) = true := by decide

end Sys2Proof.Tests
end

section
/-!
Configurations: each check of 00_scope.md R7 says its condition, so `Params.wf` is the six conditions, and
`powerOn` starts exactly the configurations that meet it.
-/
namespace Sys2Proof

@[simp] theorem Params.accCapOk_iff (p : Params) :
    p.accCapOk = true ↔ ∀ n, p.accCap = .bounded n → 8 ≤ n := by
  unfold Params.accCapOk
  cases p.accCap with
  | inf => simp
  | bounded m => simp

@[simp] theorem Params.regionOk_iff (p : Params) :
    p.regionOk = true ↔ p.start.toNat + p.count.toNat ≤ p.bufPixels.toNat :=
  decide_eq_true_iff

theorem Params.stride_eq_ite (p : Params) : p.stride = if p.mode = .rgbw then 4 else 3 := by
  unfold Params.stride
  cases p.mode <;> rfl

@[simp] theorem Params.offsetsOk_iff (p : Params) :
    p.offsetsOk = true ↔ p.bufPixels.toNat * (if p.mode = .rgbw then 4 else 3) ≤ 2 ^ 32 := by
  rw [Params.offsetsOk, decide_eq_true_iff, Params.stride_eq_ite]

@[simp] theorem Params.sentinelOk_iff (p : Params) : p.sentinelOk = true ↔ p.count.toNat ≤ 65535 :=
  decide_eq_true_iff

@[simp] theorem Params.statusOk_iff (p : Params) : p.statusOk = true ↔ p.statusNames.length ≤ 256 :=
  decide_eq_true_iff

@[simp] theorem Params.maxLenOk_iff (p : Params) : p.maxLenOk = true ↔ p.maxLen.toNat = 8192 := by
  rw [Params.maxLenOk, beq_iff_eq, ← BitVec.toNat_inj]
  rfl

/-- The Boolean the model checks is R7, condition by condition. -/
theorem Params.wf_iff (p : Params) :
    p.wf = true ↔
      (∀ n, p.accCap = .bounded n → 8 ≤ n) ∧ p.start.toNat + p.count.toNat ≤ p.bufPixels.toNat ∧
        p.bufPixels.toNat * (if p.mode = .rgbw then 4 else 3) ≤ 2 ^ 32 ∧ p.count.toNat ≤ 65535 ∧
        p.statusNames.length ≤ 256 ∧ p.maxLen.toNat = 8192 := by
  simp only [Params.wf, Bool.and_eq_true, and_assoc, accCapOk_iff, regionOk_iff, offsetsOk_iff,
    sentinelOk_iff, statusOk_iff, maxLenOk_iff]

theorem checkConfig_of_wf {p : Params} (h : p.wf = true) : checkConfig p = .ok { toParams := p, ok := h } :=
  dif_pos h

theorem checkConfig_of_not_wf {p : Params} (h : ¬p.wf = true) :
    checkConfig p = .error (brokenChecks p) :=
  dif_neg h

end Sys2Proof

namespace Sys2Proof.Machine

theorem powerOn_of_wf {p : Params} (h : p.wf = true) :
    powerOn p = .next (State.resetWith { toParams := p, ok := h }) := by
  rw [powerOn, checkConfig_of_wf h]

theorem powerOn_of_not_wf {p : Params} (h : ¬p.wf = true) :
    powerOn p = .refused .illFormedConfiguration := by
  rw [powerOn, checkConfig_of_not_wf h]

/-- Settles O15: the six conditions are the model's check (`Params.wf_iff`), on which `powerOn` branches. -/
theorem illFormedConfigurationHasNoRuns : Obligations.IllFormedConfigurationHasNoRuns := by
  intro p
  rw [← p.wf_iff]
  exact ⟨fun hwf => ⟨_, rfl, powerOn_of_wf hwf⟩, powerOn_of_not_wf⟩

end Sys2Proof.Machine
end

section
/-!
The encoding read backwards (30_encoding.md R62 to R70). `Format.word` lays a word out again from its own
fields: it gives back every word whose reserved bits are 0, so a word that decodes is the encoding of its
command. A row's mask is the OPCODE bits and the reserved bits of its format, so a word that matches a row
is one the decoder reads by that row.
-/
namespace Sys2Proof

/-! ### Reserved bits -/

/-- The bit numbers a format reserves, as the bit ranges of R63 beside the masks of `reservedMask`. -/
def Format.reserves (f : Format) (k : Nat) : Bool :=
  match f with
  | .n => decide (k < 56)
  | .b => decide (8 ≤ k ∧ k < 56)
  | .ic => decide (8 ≤ k ∧ k < 32 ∨ 48 ≤ k ∧ k < 56)
  | .irgb => decide (24 ≤ k ∧ k < 32 ∨ 48 ≤ k ∧ k < 56)
  | .w => decide (32 ≤ k ∧ k < 56)

theorem getLsbD_reservedMask (f : Format) : ∀ k < 64, (reservedMask f).getLsbD k = f.reserves k := by
  cases f <;> decide

/-- No format reserves a bit of the OPCODE (R62). -/
theorem Format.lt_of_reserves {f : Format} {k : Nat} (h : f.reserves k = true) : k < 56 := by
  cases f <;> simp only [Format.reserves, decide_eq_true_eq] at h <;> omega

theorem getLsbD_of_reserves {w : Word} {f : Format} (hw : w &&& reservedMask f = 0#64) {k : Nat}
    (hk : f.reserves k = true) : w.getLsbD k = false := by
  have hlt : k < 64 := Nat.lt_trans (Format.lt_of_reserves hk) (by decide)
  simpa [getLsbD_reservedMask f k hlt, hk] using congrArg (·.getLsbD k) hw

/-! ### Words from their fields -/

/-- The word of format `f` with the OPCODE `op` and the operand fields of `w` (R63, R64). -/
def Format.word (f : Format) (op : Byte) (w : Word) : Word :=
  match f with
  | .n => formatN op
  | .b => formatB op (lowByteField w)
  | .ic => formatIC op (idxField w) (lowByteField w)
  | .irgb => formatIRGB op (idxField w) (redField w) (greenField w) (lowByteField w)
  | .w => formatW op (offField w)

theorem getLsbD_word (f : Format) (w : Word) {k : Nat} (hk : k < 64) :
    (f.word (opcodeField w) w).getLsbD k = (!f.reserves k && w.getLsbD k) := by
  cases f <;>
    simp only [Format.word, Format.reserves, getLsbD_formatN, getLsbD_formatB, getLsbD_formatIC,
      getLsbD_formatIRGB, getLsbD_formatW, opcodeField, lowByteField, idxField, redField, greenField,
      offField, BitVec.getLsbD_extractLsb'] <;>
    grind

/-- A word whose reserved bits are 0 is nothing but its OPCODE and its fields. -/
theorem word_opcodeField {w : Word} {f : Format} (hw : w &&& reservedMask f = 0#64) :
    f.word (opcodeField w) w = w := by
  apply BitVec.eq_of_getLsbD_eq
  intro k hk
  rw [getLsbD_word f w hk]
  cases hr : f.reserves k with
  | false => simp
  | true => simp [getLsbD_of_reserves hw hr]

/-! ### The decoder's rows -/

/-- The command a row spells encodes to the row's OPCODE and the word's fields (R69). -/
theorem encode_of_opcodeRow {op : Byte} {w : Word} {f : Format} {i : Instr}
    (h : opcodeRow op w = some (f, i)) : encode i = f.word op w := by
  have hop : op = BitVec.ofNat 8 op.toNat := by simp
  unfold opcodeRow at h
  split at h <;> rename_i hn <;> cases h <;> rw [hop, hn] <;> rfl

/-- What decoding to a command means (R68): the OPCODE's row spells it and the reserved bits are 0. -/
theorem decode_eq_ok_iff {w : Word} {i : Instr} :
    decode w = .ok i ↔ ∃ f, opcodeRow (opcodeField w) w = some (f, i) ∧ w &&& reservedMask f = 0#64 := by
  unfold decode
  cases opcodeRow (opcodeField w) w with
  | none => simp
  | some row =>
    obtain ⟨f, j⟩ := row
    by_cases hres : w &&& reservedMask f = 0#64 <;> simp [hres]

/-- A word that decodes is the word of the command it decodes to. -/
theorem encode_of_decode {w : Word} {i : Instr} (h : decode w = .ok i) : encode i = w := by
  obtain ⟨f, hrow, hres⟩ := decode_eq_ok_iff.mp h
  rw [encode_of_opcodeRow hrow, word_opcodeField hres]

/-! ### The rows of opcode_table.json (R68) -/

/-- The OPCODE bits of a word, which every row's mask keeps. -/
def opcodeMask : Word := 0xFF00000000000000#64

theorem getLsbD_opcodeMask : ∀ k < 64, opcodeMask.getLsbD k = decide (56 ≤ k) := by decide

/-- The row asks for the OPCODE `op` and for zeros in the reserved bits of `f`. -/
def TableRow.Asks (row : TableRow) (op : Byte) (f : Format) : Prop :=
  row.mask = opcodeMask ||| reservedMask f ∧ row.matchBits = formatN op

theorem TableRow.Asks.opcodeField_eq {row : TableRow} {op : Byte} {f : Format} (hrow : row.Asks op f)
    {w : Word} (hw : w &&& row.mask = row.matchBits) : opcodeField w = op := by
  obtain ⟨hmask, hmatch⟩ := hrow
  rw [hmask, hmatch] at hw
  apply BitVec.eq_of_getLsbD_eq
  intro k hk
  have hbit := congrArg (·.getLsbD (56 + k)) hw
  simpa [opcodeField, getLsbD_opcodeMask (56 + k) (by omega), getLsbD_formatN, hk] using hbit

theorem TableRow.Asks.reserved_eq {row : TableRow} {op : Byte} {f : Format} (hrow : row.Asks op f)
    {w : Word} (hw : w &&& row.mask = row.matchBits) : w &&& reservedMask f = 0#64 := by
  obtain ⟨hmask, hmatch⟩ := hrow
  rw [hmask, hmatch] at hw
  apply BitVec.eq_of_getLsbD_eq
  intro k hk
  have hbit := congrArg (·.getLsbD k) hw
  rw [BitVec.getLsbD_and, getLsbD_reservedMask f k hk]
  cases hr : f.reserves k with
  | false => simp
  | true =>
    simpa [getLsbD_reservedMask f k hk, hr, getLsbD_formatN, Format.lt_of_reserves hr] using hbit

/-- Every row of the table is one of the decoder's rows: the same OPCODE and format, the same mnemonic. -/
theorem opcodeRow_of_mem_opcodeTable {row : TableRow} (h : row ∈ opcodeTable) (w : Word) :
    ∃ op f i, row.Asks op f ∧ opcodeRow op w = some (f, i) ∧ mnemonicOf i = row.mnemonic := by
  simp only [opcodeTable, List.cons_append, List.nil_append, List.mem_cons, List.not_mem_nil, or_false] at h
  rcases h with rfl | rfl | rfl | rfl | rfl | rfl | rfl | rfl | rfl | rfl | rfl | rfl | rfl
  · exact ⟨0x00#8, .n, _, ⟨rfl, rfl⟩, rfl, rfl⟩
  · exact ⟨0x01#8, .b, _, ⟨rfl, rfl⟩, rfl, rfl⟩
  · exact ⟨0x10#8, .b, _, ⟨rfl, rfl⟩, rfl, rfl⟩
  · exact ⟨0x11#8, .n, _, ⟨rfl, rfl⟩, rfl, rfl⟩
  · exact ⟨0x12#8, .n, _, ⟨rfl, rfl⟩, rfl, rfl⟩
  · exact ⟨0x20#8, .n, _, ⟨rfl, rfl⟩, rfl, rfl⟩
  · exact ⟨0x21#8, .n, _, ⟨rfl, rfl⟩, rfl, rfl⟩
  · exact ⟨0x30#8, .ic, _, ⟨rfl, rfl⟩, rfl, rfl⟩
  · exact ⟨0x31#8, .irgb, _, ⟨rfl, rfl⟩, rfl, rfl⟩
  · exact ⟨0x32#8, .n, _, ⟨rfl, rfl⟩, rfl, rfl⟩
  · exact ⟨0x33#8, .b, _, ⟨rfl, rfl⟩, rfl, rfl⟩
  · exact ⟨0x34#8, .n, _, ⟨rfl, rfl⟩, rfl, rfl⟩
  · exact ⟨0x35#8, .w, _, ⟨rfl, rfl⟩, rfl, rfl⟩

/-- A word that matches a row decodes to that row's command. -/
theorem decode_of_mem_opcodeTable {row : TableRow} (hrow : row ∈ opcodeTable) {w : Word}
    (hw : w &&& row.mask = row.matchBits) : ∃ i, decode w = .ok i ∧ mnemonicOf i = row.mnemonic := by
  obtain ⟨op, f, i, hasks, hdec, hname⟩ := opcodeRow_of_mem_opcodeTable hrow w
  refine ⟨i, decode_eq_ok_iff.mpr ⟨f, ?_, hasks.reserved_eq hw⟩, hname⟩
  rw [hasks.opcodeField_eq hw, hdec]

/-- The word of every command matches the row with its mnemonic. -/
theorem encode_matches_opcodeTable (i : Instr) : Laws.MatchesTableRow.Statement i := by
  cases i with
  | nop => exact Laws.MatchesTableRow.nop
  | regRead reg => exact Laws.MatchesTableRow.regRead reg
  | serFeed b => exact Laws.MatchesTableRow.serFeed b
  | serExtract => exact Laws.MatchesTableRow.serExtract
  | serDrain => exact Laws.MatchesTableRow.serDrain
  | aiPoll => exact Laws.MatchesTableRow.aiPoll
  | aiTake => exact Laws.MatchesTableRow.aiTake
  | pixSet idx col => exact Laws.MatchesTableRow.pixSet idx col
  | pixSetRgb idx r g b => exact Laws.MatchesTableRow.pixSetRgb idx r g b
  | pixClear => exact Laws.MatchesTableRow.pixClear
  | pixBright level => exact Laws.MatchesTableRow.pixBright level
  | pixShow => exact Laws.MatchesTableRow.pixShow
  | pixRead off => exact Laws.MatchesTableRow.pixRead off

/-- A mnemonic names one row. -/
theorem opcodeTable_mnemonic_injective :
    ∀ r₁ ∈ opcodeTable, ∀ r₂ ∈ opcodeTable, r₁.mnemonic = r₂.mnemonic → r₁ = r₂ := by decide

/-- Settles O2. At most one row matches because both rows would name the one command the word decodes to. -/
theorem decodeAgreesWithOpcodeTable : Obligations.DecodeAgreesWithOpcodeTable := by
  intro w
  refine ⟨fun i hi => ?_, fun row hrow hw => ?_, fun r₁ h₁ r₂ h₂ hw₁ hw₂ => ?_⟩
  · rw [← encode_of_decode hi]
    exact encode_matches_opcodeTable i
  · obtain ⟨i, hi, hname⟩ := decode_of_mem_opcodeTable hrow hw
    exact ⟨i, hi, hname, encode_of_decode hi⟩
  · obtain ⟨i, hi, hname₁⟩ := decode_of_mem_opcodeTable h₁ hw₁
    obtain ⟨j, hj, hname₂⟩ := decode_of_mem_opcodeTable h₂ hw₂
    obtain rfl : i = j := Except.ok.inj (hi.symm.trans hj)
    exact opcodeTable_mnemonic_injective r₁ h₁ r₂ h₂ (hname₁.symm.trans hname₂)

end Sys2Proof

/-! ### ILLEGAL words (R70) -/

namespace Sys2Proof.Machine

/-- The host's next word is consumed and run (R67). -/
theorem step_of_command {s : State} {w : Word} {rest : List HostInput}
    (h : s.inbox = .command w :: rest) : step s = execWord w { s with inbox := rest } := by
  simp only [step, nextInput, h]

theorem execWord_of_illegal {w : Word} {e : Illegal} (h : decode w = .error e) (s : State) :
    execWord w s = .next (illegal s).respond := by
  simp only [execWord, h, execIllegal]

/-- A word that no command encodes to is ILLEGAL. -/
theorem decode_of_forall_encode_ne {w : Word} (h : ∀ i, encode i ≠ w) : ∃ e, decode w = .error e := by
  cases hd : decode w with
  | ok i => exact absurd (encode_of_decode hd) (h i)
  | error e => exact ⟨e, rfl⟩

/-- Settles O8: such a word is ILLEGAL, and the step is the skeleton's ILLEGAL branch. -/
theorem illegalWordOnlyRecordsItsOutcome : Obligations.IllegalWordOnlyRecordsItsOutcome := by
  refine ⟨rfl, fun s w rest hin hne => ?_⟩
  obtain ⟨e, hd⟩ := decode_of_forall_encode_ne hne
  rw [step_of_command hin, execWord_of_illegal hd, illegal, reject_respond, Claims.answered]

end Sys2Proof.Machine
end

section
/-!
The serial framer's helper functions (40_serial_framer.md R86 to R88): the digit table, the body decoder check
by check, and the telemetry value.
-/
namespace Sys2Proof.Machine

open Claims

/-! ### Hex digits (R86) -/

theorem hexval_of_decimal {c : Byte} (hlo : 0x30 ≤ c.toNat) (hhi : c.toNat ≤ 0x39) :
    hexval c = some (BitVec.ofNat 4 (c.toNat - 0x30)) :=
  if_pos ⟨hlo, hhi⟩

theorem hexval_of_not_decimal {c : Byte} (h : ¬(0x30 ≤ c.toNat ∧ c.toNat ≤ 0x39)) :
    hexval c =
      if 0x41 ≤ c.toNat ∧ c.toNat ≤ 0x46 then some (BitVec.ofNat 4 (c.toNat - 0x41 + 10)) else none :=
  if_neg h

/-- Settles O31, range by range of the table. -/
theorem hexDigitTable : Obligations.HexDigitTable := by
  intro c
  refine ⟨hexval_of_decimal, fun hlo hhi => ?_, fun hdec hupper => ?_⟩
  · rw [hexval_of_not_decimal (by omega), if_pos ⟨hlo, hhi⟩]
  · rw [hexval_of_not_decimal hdec, if_neg hupper]

/-- The first digit of a pair is the high one (R87, 20_memory.md R47). -/
theorem hexPair_eq {c0 c1 : Byte} {h l : BitVec 4} (hh : hexval c0 = some h) (hl : hexval c1 = some l) :
    hexPair c0 c1 = BitVec.ofNat 8 (h.toNat * 16 + l.toNat) := by
  have hval : (h ++ l).toNat = h.toNat * 16 + l.toNat := by
    rw [BitVec.toNat_append, ← Nat.shiftLeft_add_eq_or_of_lt l.isLt, Nat.shiftLeft_eq]
  rw [hexPair, hh, hl, ← hval, BitVec.ofNat_toNat, BitVec.setWidth_eq]
  rfl

/-! ### The body decoder (R87) -/

theorem decodeBody_nil (scope : HexScope) : decodeBody scope [] = .badTag := if_pos (.inl rfl)

theorem decodeBody_of_tag_ne (scope : HexScope) {c : Byte} (hc : c ≠ 0x41#8) (cs : Bytes) :
    decodeBody scope (c :: cs) = .badTag :=
  if_pos (.inr hc)

/-- Past the tag check the length is checked, then the digits in scope. -/
theorem decodeBody_tagged (scope : HexScope) (cs : Bytes) :
    decodeBody scope (0x41#8 :: cs) =
      if cs.length ≠ 6 then .badLength
      else if (checkedDigits scope (0x41#8 :: cs)).any (fun d => (hexval d).isNone) then .badHex
      else .accept (hexPair ((0x41#8 :: cs).getD 5 0#8) ((0x41#8 :: cs).getD 6 0#8)) := by
  simp [decodeBody]

/-- HEX_SCOPE's digits: the last two always, the first four under ALL6. -/
theorem any_invalid_checkedDigits_iff (scope : HexScope) (tag d1 d2 d3 d4 d5 d6 : Byte) :
    (checkedDigits scope [tag, d1, d2, d3, d4, d5, d6]).any (fun d => (hexval d).isNone) = true ↔
      hexval d5 = none ∨ hexval d6 = none ∨
        scope = .all6 ∧ (hexval d1 = none ∨ hexval d2 = none ∨ hexval d3 = none ∨ hexval d4 = none) := by
  cases scope with
  | all6 => simp [checkedDigits]; tauto
  | last2 => simp [checkedDigits]

/-- Settles O32: tag, then length, then the digits in scope. -/
theorem bodyDecoding : Obligations.BodyDecoding := by
  intro scope
  refine ⟨decodeBody_nil scope, fun c cs hc => decodeBody_of_tag_ne scope hc cs, fun cs hlen => ?_,
    fun d1 d2 d3 d4 d5 d6 => ⟨fun hbad => ?_, fun h l hh hl hall => ?_⟩⟩
  · rw [decodeBody_tagged, if_pos hlen]
  · rw [decodeBody_tagged, if_neg (by simp), if_pos ((any_invalid_checkedDigits_iff ..).mpr hbad)]
  · have hgood : ¬(checkedDigits scope [0x41#8, d1, d2, d3, d4, d5, d6]).any
        (fun d => (hexval d).isNone) = true := by
      rw [any_invalid_checkedDigits_iff, hh, hl]
      rintro (h5 | h6 | ⟨hscope, hbad⟩)
      · cases h5
      · cases h6
      · have := hall hscope
        tauto
    rw [decodeBody_tagged, if_neg (by simp), if_neg hgood]
    exact congrArg _ (hexPair_eq hh hl)

/-! ### The telemetry value (R88) -/

/-- The product fits the register: nothing is truncated. -/
theorem telem_toNat (v : Byte) : (telem v).toNat = (v.toNat * 7863 + 50) / 100 := by
  have hv := v.isLt
  rw [telem, BitVec.toNat_ofNat, Config.telemScaleX100, Nat.mod_eq_of_lt (by omega)]

/-- Settles O33. 7863 is 63 modulo 100 and 63 is a unit there, so an exact half asks for 50 modulo 100. -/
theorem telemetryRoundsHalfUp : Obligations.TelemetryRoundsHalfUp := by
  refine ⟨fun v => ?_, by decide⟩
  have hv := v.isLt
  rw [telem_toNat]
  refine ⟨rfl, by omega, ?_⟩
  simp only [← BitVec.toNat_inj, BitVec.toNat_ofNat]
  omega

end Sys2Proof.Machine
end

section
/-!
The serial framer's commands (40_serial_framer.md R91, R93, R95). A queued frame is taken by `takeFrame`, which
SER_EXTRACT runs once and SER_DRAIN once per body; what either leaves in the telemetry registers is said by
`State.withSamples`, the registers after a list of accepted samples.
-/
namespace Sys2Proof.Machine

open Claims

/-! ### Completion in the statements' words (30_encoding.md R67) -/

theorem complete_respond_eq_answered (s : State) (o : Code) (v : Nat) (t : Bytes) :
    (complete s o v t).respond = answered s o v t := complete_respond s o v t

theorem reject_respond_eq_answered (s : State) (o : Code) (v : Nat) :
    (reject s o v).respond = answered s o v [] := reject_respond s o v

/-! ### SER_FEED (R91) -/

theorem Cap.room_iff {cap : Cap} {n : Nat} : Cap.room cap n = true ↔ ∀ k, cap = .bounded k → n < k := by
  cases cap with
  | inf => simp [Cap.room]
  | bounded k => simp [Cap.room]

theorem serFeed_of_disc {s : State} (hdisc : s.disc = true) (b : Byte) :
    serFeed b s = reject { s with disc := if b = dollar then false else true } .serResyncDrop 0 := by
  rw [serFeed, if_pos hdisc]
  split
  · rfl
  · rw [← hdisc]

theorem serFeed_of_room {s : State} (hdisc : s.disc = false)
    (hroom : Cap.room s.cfg.accCap s.acc.length = true) (b : Byte) :
    serFeed b s = complete { s with acc := s.acc ++ [b] } .serAccepted (sat32 (s.acc.length + 1)) [] := by
  rw [serFeed, if_neg (by simp [hdisc]), if_pos hroom, List.length_append, List.length_singleton]

theorem serFeed_of_full {s : State} {front fragment : Bytes} (hdisc : s.disc = false)
    (hfull : Cap.room s.cfg.accCap s.acc.length = false) (hacc : s.acc = front ++ fragment)
    (hfrag : dollar ∉ fragment) (hfront : front = [] ∨ front.getLast? = some dollar) (b : Byte) :
    serFeed b s =
      reject { s with acc := front, disc := if b = dollar then false else true } .serOverflow
        (sat32 fragment.length) := by
  rw [serFeed, if_neg (by simp [hdisc]), if_neg (by simp [hfull]), hacc,
    trailStart_append hfrag hfront, List.take_left, List.length_append, Nat.add_sub_cancel_left, hdisc]

/-- Settles O30: discard mode, room, overflow, each from its rule for `serFeed`. -/
theorem serFeedCases : Obligations.SerFeedCases := by
  intro b s
  refine ⟨rfl, fun hdisc => ?_, fun hdisc hroom => ?_,
    fun front fragment hdisc hcap hacc hfrag hfront => ?_⟩
  · rw [exec_eq, effectOf, serFeed_of_disc hdisc, reject_respond_eq_answered]
  · rw [exec_eq, effectOf, serFeed_of_room hdisc (Cap.room_iff.mpr hroom), complete_respond_eq_answered,
      sat32]
  · have hfull : Cap.room s.cfg.accCap s.acc.length = false := by simp [hcap, Cap.room]
    rw [exec_eq, effectOf, serFeed_of_full hdisc hfull hacc hfrag hfront, reject_respond_eq_answered, sat32]

/-! ### Taking one frame (R93, R89) -/

/-- Decoding the body of a frame already removed from `acc` (R93). -/
def takeFrame (body : Bytes) (s : State) : Effect :=
  match decodeBody s.cfg.hexScope body with
  | .accept v => complete (acceptTelem v s) .serFrameOk (telem v).toNat []
  | .badTag => reject s .serBadTag (sat32 body.length)
  | .badLength => reject s .serBadLength (sat32 body.length)
  | .badHex => reject s .serBadHex (sat32 body.length)

theorem serExtract_of_frame {s : State} {body rest : Bytes} (hacc : s.acc = body ++ dollar :: rest)
    (hbody : dollar ∉ body) : serExtract s = takeFrame body { s with acc := rest } := by
  have hdrop : (body ++ dollar :: rest).drop (body.length + 1) = rest := by
    rw [← List.drop_drop, List.drop_left, List.drop_one, List.tail_cons]
  rw [serExtract, hacc, firstDollar_append hbody]
  simp only [List.take_left, hdrop]
  rfl

/-- Settles O34: no frame to take, or `takeFrame` on the first body, by its verdict. -/
theorem serExtractTakesTheFirstFrame : Obligations.SerExtractTakesTheFirstFrame := by
  intro s
  refine ⟨rfl, fun hnone => ?_, fun body rest hacc hbody => ?_⟩
  · rw [exec_eq, effectOf, serExtract_none hnone, complete_respond_eq_answered]
  · rw [exec_eq, effectOf, serExtract_of_frame hacc hbody, takeFrame]
    cases decodeBody s.cfg.hexScope body with
    | accept v => rfl
    | badTag => rfl
    | badLength => rfl
    | badHex => rfl

/-! ### The telemetry registers after accepted samples (R89, R94) -/

/-- `s` once the samples `vs` have been accepted, in order. -/
def State.withSamples (vs : List (BitVec 8)) (s : State) : State :=
  { s with
    telemValue := (telemAfter vs (s.telemValue, s.telemValid)).1
    telemValid := (telemAfter vs (s.telemValue, s.telemValid)).2 }

theorem telemAfter_append (vs ws : List (BitVec 8)) (old : BitVec 16 × Bool) :
    telemAfter (vs ++ ws) old = telemAfter ws (telemAfter vs old) := by
  rw [telemAfter, telemAfter, List.getLast?_append]
  cases ws.getLast? with
  | none => rfl
  | some v => rfl

@[simp] theorem State.withSamples_nil (s : State) : s.withSamples [] = s := rfl

theorem State.withSamples_append (vs ws : List (BitVec 8)) (s : State) :
    s.withSamples (vs ++ ws) = (s.withSamples vs).withSamples ws := by
  simp only [State.withSamples, telemAfter_append]

theorem acceptedSamples_cons (scope : HexScope) (body : Bytes) (bodies : List Bytes) :
    acceptedSamples scope (body :: bodies) =
      acceptedSamples scope [body] ++ acceptedSamples scope bodies := by
  simp only [acceptedSamples, ← List.filterMap_append, List.singleton_append]

/-- A frame taken is its sample accepted, if it has one. -/
theorem takeFrame_state (body : Bytes) (s : State) :
    (takeFrame body s).state = s.withSamples (acceptedSamples s.cfg.hexScope [body]) := by
  cases hd : decodeBody s.cfg.hexScope body with
  | accept v => simp only [takeFrame, acceptedSamples, hd, List.filterMap_cons]; rfl
  | badTag => simp [takeFrame, acceptedSamples, hd]
  | badLength => simp [takeFrame, acceptedSamples, hd]
  | badHex => simp [takeFrame, acceptedSamples, hd]

/-- SER_FRAME_OK is answered exactly for a body with a sample (R93). -/
theorem takeFrame_outcome (body : Bytes) (s : State) (a : Nat) :
    (if (takeFrame body s).response.outcome = .serFrameOk then a + 1 else a) =
      a + (acceptedSamples s.cfg.hexScope [body]).length := by
  cases hd : decodeBody s.cfg.hexScope body with
  | accept v => simp [takeFrame, acceptedSamples, hd]
  | badTag => simp [takeFrame, acceptedSamples, hd]
  | badLength => simp [takeFrame, acceptedSamples, hd]
  | badHex => simp [takeFrame, acceptedSamples, hd]

/-! ### Frames and a fragment (R90, R95) -/

theorem accOf_cons (body : Bytes) (bodies : List Bytes) (tail : Bytes) :
    accOf (body :: bodies) tail = body ++ dollar :: accOf bodies tail := by
  simp [accOf]

/-- Every frame holds its `'$'`, so there are at most as many as bytes. -/
theorem length_le_length_accOf (bodies : List Bytes) (tail : Bytes) :
    bodies.length ≤ (accOf bodies tail).length := by
  induction bodies with
  | nil => simp
  | cons body bodies ih =>
    rw [accOf_cons, List.length_append, List.length_cons, List.length_cons]
    omega

/-- Every accumulator is frames and a fragment: a byte before them is an empty body's `'$'`, the first byte
of the first body, or the first byte of the fragment. -/
theorem exists_accOf (acc : Bytes) :
    ∃ bodies tail, acc = accOf bodies tail ∧ (∀ b ∈ bodies, dollar ∉ b) ∧ dollar ∉ tail := by
  induction acc with
  | nil => exact ⟨[], [], rfl, by simp, by simp⟩
  | cons b bs ih =>
    obtain ⟨bodies, tail, rfl, hbodies, htail⟩ := ih
    by_cases hb : b = dollar
    · exact ⟨[] :: bodies, tail, by rw [accOf_cons, hb, List.nil_append], by simpa using hbodies, htail⟩
    · cases bodies with
      | nil => exact ⟨[], b :: tail, rfl, by simp, by simp [Ne.symm hb, htail]⟩
      | cons body bodies =>
        obtain ⟨hbody, hrest⟩ := List.forall_mem_cons.mp hbodies
        refine ⟨(b :: body) :: bodies, tail, by simp only [accOf_cons, List.cons_append], ?_, htail⟩
        exact List.forall_mem_cons.mpr ⟨by simp [Ne.symm hb, hbody], hrest⟩

/-! ### SER_DRAIN (R95) -/

theorem drainLoop_of_no_dollar {s : State} (h : dollar ∉ s.acc) (fuel n a : Nat) :
    drainLoop fuel s n a = (s, n, a) := by
  cases fuel with
  | zero => rfl
  | succ fuel => rw [drainLoop, firstDollar_eq_none.mpr h]

/-- One pass of the loop takes one frame. -/
theorem drainLoop_succ_of_frame {s : State} {body rest : Bytes} (hacc : s.acc = body ++ dollar :: rest)
    (hbody : dollar ∉ body) (fuel n a : Nat) :
    drainLoop (fuel + 1) s n a =
      drainLoop fuel (({ s with acc := rest } : State).withSamples (acceptedSamples s.cfg.hexScope [body]))
        (n + 1) (a + (acceptedSamples s.cfg.hexScope [body]).length) := by
  rw [drainLoop, hacc, firstDollar_append hbody]
  simp only
  rw [serExtract_of_frame hacc hbody, takeFrame_state, takeFrame_outcome]

/-- The loop takes every body in order and counts them, whatever it had counted before. -/
theorem drainLoop_accOf {bodies : List Bytes} {tail : Bytes} (hbodies : ∀ b ∈ bodies, dollar ∉ b)
    (htail : dollar ∉ tail) {fuel : Nat} (hfuel : bodies.length ≤ fuel) {s : State}
    (hacc : s.acc = accOf bodies tail) (n a : Nat) :
    drainLoop fuel s n a =
      (({ s with acc := tail } : State).withSamples (acceptedSamples s.cfg.hexScope bodies),
        n + bodies.length, a + (acceptedSamples s.cfg.hexScope bodies).length) := by
  induction bodies generalizing fuel s n a with
  | nil =>
    obtain rfl : s.acc = tail := hacc
    exact drainLoop_of_no_dollar htail fuel n a
  | cons body bodies ih =>
    obtain ⟨hbody, hrest⟩ := List.forall_mem_cons.mp hbodies
    rw [accOf_cons] at hacc
    cases fuel with
    | zero => simp at hfuel
    | succ fuel =>
      rw [drainLoop_succ_of_frame hacc hbody, ih hrest (Nat.le_of_succ_le_succ hfuel) rfl,
        acceptedSamples_cons s.cfg.hexScope body bodies, State.withSamples_append, List.length_append,
        List.length_cons, Nat.add_assoc, Nat.add_assoc, Nat.add_comm 1]
      rfl

theorem drained_accOf {s : State} {bodies : List Bytes} {tail : Bytes} (hacc : s.acc = accOf bodies tail)
    (hbodies : ∀ b ∈ bodies, dollar ∉ b) (htail : dollar ∉ tail) :
    drained s =
      (({ s with acc := tail } : State).withSamples (acceptedSamples s.cfg.hexScope bodies),
        bodies.length, (acceptedSamples s.cfg.hexScope bodies).length) := by
  have hfuel : bodies.length ≤ s.acc.length := hacc ▸ length_le_length_accOf bodies tail
  rw [drained, drainLoop_accOf hbodies htail hfuel hacc, Nat.zero_add, Nat.zero_add]

/-- The two counts do not overlap in the result word. -/
theorem sat16_or_shiftLeft_sat16 (n a : Nat) :
    sat16 n ||| (sat16 a <<< 16) = min n 65535 + 2 ^ 16 * min a 65535 := by
  have hn : sat16 n < 2 ^ 16 := by unfold sat16; omega
  rw [Nat.or_comm, ← Nat.shiftLeft_add_eq_or_of_lt hn, Nat.shiftLeft_eq, Nat.mul_comm, Nat.add_comm,
    sat16, sat16]

/-- Settles O35: the loop run on frames and a fragment (`drained_accOf`), then its two counts packed. -/
theorem serDrainTakesEveryFrame : Obligations.SerDrainTakesEveryFrame := by
  refine ⟨rfl, exists_accOf, fun s bodies tail hacc hbodies htail => ?_⟩
  rw [exec_eq, effectOf, serDrain, drained_accOf hacc hbodies htail, complete_respond_eq_answered,
    sat16_or_shiftLeft_sat16]
  rfl

end Sys2Proof.Machine
end

section
/-!
The AI framer's checksum and AI_TAKE (41_ai_framer.md R107, R113). AI_TAKE is said slot form by slot form, in
the statements' words; that it always leaves the slot empty is `aiTake_state`.
-/
namespace Sys2Proof.Machine

open Claims

/-! ### The checksum (R107) -/

theorem xorFold_cons (b : Byte) (bs : Bytes) : xorFold (b :: bs) = b ^^^ xorFold bs := by
  rw [xorFold, List.foldl_cons, xorFold_from, BitVec.zero_xor]

theorem checksumOk_iff (payload : Bytes) (ck : Byte) : checksumOk payload ck = true ↔ xorFold payload = ck :=
  beq_iff_eq

/-- Settles O38. -/
theorem checksumIsXorOfPayload : Obligations.ChecksumIsXorOfPayload :=
  ⟨rfl, xorFold_cons, checksumOk_iff⟩

/-! ### AI_TAKE (R113) -/

/-- A low field below bit `k` and a field from bit `k` up do not overlap. -/
theorem or_shiftLeft_eq_add {low k : Nat} (hlow : low < 2 ^ k) (high : Nat) :
    low ||| (high <<< k) = low + 2 ^ k * high := by
  rw [Nat.or_comm, ← Nat.shiftLeft_add_eq_or_of_lt hlow, Nat.shiftLeft_eq, Nat.mul_comm, Nat.add_comm]

theorem aiTake_of_empty {s : State} (h : s.slot = .empty) : aiTake s = complete s .ok 0 [] := by
  have hs : ({ s with slot := .empty } : State) = s := by rw [← h]
  simp only [aiTake, h, hs]

theorem aiTake_of_status {s : State} {i : Byte} {name : Bytes} (h : s.slot = .status i)
    (hname : s.cfg.statusNames[i.toNat]? = some name) :
    aiTake s = complete { s with slot := .empty } .ok (1 + 256 * i.toNat) name := by
  have htext : statusText s.cfg i = name := by
    rw [statusText, List.getD_eq_getElem?_getD, hname, Option.getD_some]
  simp only [aiTake, h, htext, or_shiftLeft_eq_add (show 1 < 2 ^ 8 by decide)]
  rfl

theorem aiTake_of_json {s : State} {t : Bytes} (h : s.slot = .json t) :
    aiTake s = complete { s with slot := .empty } .ok (2 + 2 ^ 16 * min t.length 65535) t := by
  simp only [aiTake, h, or_shiftLeft_eq_add (show 2 < 2 ^ 16 by decide), sat16]

/-- Settles O42: one rule per slot form, and the first take leaves the form whose rule is kind 0. -/
theorem aiTakeDeliversOnce : Obligations.AiTakeDeliversOnce := by
  refine ⟨rfl, fun s => ⟨fun h => ?_, fun i name h hname => ?_, fun t h => ?_, ?_⟩⟩
  · rw [exec_eq, effectOf, aiTake_of_empty h, complete_respond_eq_answered]
  · rw [exec_eq, effectOf, aiTake_of_status h hname, complete_respond_eq_answered]
  · rw [exec_eq, effectOf, aiTake_of_json h, complete_respond_eq_answered]
  · have hempty : (aiTake s).respond.slot = .empty := by rw [Effect.respond_slot, aiTake_state]
    refine ⟨(aiTake s).respond, exec_eq .aiTake s, hempty, ?_⟩
    rw [exec_eq, effectOf, aiTake_of_empty hempty, complete_respond_eq_answered]

end Sys2Proof.Machine
end

section
/-!
The pixel codec: the brightness scaler, and what PIX_CLEAR, PIX_BRIGHT, PIX_SHOW and PIX_READ leave of the state,
whole (42_pixel_codec.md R126, R134 to R140). The emitting commands end in `State.emitLED`, whose frame is
`State.bufBytes`; every other command keeps the LED history.
-/
namespace Sys2Proof.Machine

open Claims

/-! ### The brightness scaler (R126) -/

/-- Below brightness 255 the product fits 16 bits, so its upper byte is the quotient: nothing is truncated. -/
theorem scale_toNat_of_lt {br : Byte} (h : br.toNat < 255) (c : Byte) :
    (scale c br).toNat = c.toNat * br.toNat / 256 := by
  have hprod : c.toNat * br.toNat < 256 * 256 := Nat.mul_lt_mul'' c.isLt br.isLt
  rw [scale, if_pos h, BitVec.toNat_ofNat, Nat.shiftRight_eq_div_pow,
    Nat.mod_eq_of_lt (Nat.div_lt_of_lt_mul hprod)]

theorem scale_full (c : Byte) : scale c 255#8 = c := if_neg (by decide)

theorem scale_zero (c : Byte) : scale c 0#8 = 0#8 := by
  rw [← BitVec.toNat_inj, scale_toNat_of_lt (by decide)]
  simp

/-- Settles O43. The largest scaled channel is 255 at brightness 254, and 255 · 254 is below 254 · 256. -/
theorem brightnessScaler : Obligations.BrightnessScaler := by
  refine fun c br => ⟨fun hbr => ?_, fun hbr => hbr ▸ scale_full c, scale_zero c, by decide⟩
  have hprod : c.toNat * br.toNat ≤ 255 * 254 :=
    Nat.mul_le_mul (Nat.le_of_lt_succ c.isLt) (Nat.le_of_lt_succ hbr)
  rw [scale_toNat_of_lt hbr]
  exact ⟨rfl, by omega⟩

/-! ### Commands that answer with the buffer or leave it alone (R136, R138, R140) -/

/-- Settles O47: the new state is the old one with the brightness, then the skeleton's end. -/
theorem pixBrightSetsBrightnessOnly : Obligations.PixBrightSetsBrightnessOnly := by
  refine fun level s => ⟨rfl, ?_⟩
  rw [exec_eq, effectOf, pixBright, complete_respond_eq_answered]

/-- Settles O48: the frame is `State.bufBytes`. -/
theorem pixShowEmitsTheBuffer : Obligations.PixShowEmitsTheBuffer := by
  refine fun s => ⟨rfl, s.bufBytes, ?_, s.bufBytes_length, fun o ho => s.bufBytes_getElem? ho⟩
  rw [exec_eq, effectOf, pixShow, complete_respond_eq_answered, State.emitLED, sat32, Params.bufSize]

theorem pixRead_of_lt {off : BitVec 32} {s : State} (h : off.toNat < s.cfg.bufSize) :
    pixRead off s = complete s .ok (s.memRead off.toNat).toNat [] := if_neg (Nat.not_le.mpr h)

theorem pixRead_of_ge {off : BitVec 32} {s : State} (h : s.cfg.bufSize ≤ off.toNat) :
    pixRead off s = reject s .pixReadRange 0 := if_pos h

/-- Settles O49, on either side of the buffer's end. -/
theorem pixReadReturnsTheByte : Obligations.PixReadReturnsTheByte := by
  refine fun off s => ⟨rfl, fun hin => ?_, fun hout => ?_⟩
  · rw [exec_eq, effectOf, pixRead_of_lt hin, complete_respond_eq_answered]
  · rw [exec_eq, effectOf, pixRead_of_ge hout, reject_respond_eq_answered]

/-! ### PIX_CLEAR (R134) -/

/-- What PIX_CLEAR leaves: the zeroed buffer, and one frame that shows it. -/
theorem pixClear_eq (s : State) :
    pixClear s =
      complete { s with buf := (zeroActive s).buf, ledFrames := s.ledFrames ++ [(zeroActive s).bufBytes] }
        .ok 0 [] := by
  simp [pixClear, State.emitLED]

/-- Settles O46: the zeroing loop's reads (`zeroActive_read`), then the frame of the zeroed buffer. -/
theorem pixClearZeroesAndEmits : Obligations.PixClearZeroesAndEmits := by
  refine fun s hwf => ⟨rfl, (zeroActive s).buf, (zeroActive s).bufBytes, ?_, zeroActive_read hwf, ?_,
    fun o ho => (zeroActive s).bufBytes_getElem? (by rwa [zeroActive_cfg])⟩
  · rw [exec_eq, effectOf, pixClear_eq, complete_respond_eq_answered]
  · rw [State.bufBytes_length, zeroActive_cfg]

/-! ### The LED history (R137) -/

/-- A command that ends in EmitLED appends the buffer it leaves. -/
theorem complete_emitLED_respond_ledFrames (s : State) (o : Code) (v : Nat) (t : Bytes) :
    (complete s.emitLED o v t).respond.ledFrames =
      s.ledFrames ++ [(complete s.emitLED o v t).respond.bufBytes] := by
  have hframe : (complete s.emitLED o v t).respond.bufBytes = s.bufBytes := State.bufBytes_congr rfl rfl
  rw [hframe, Effect.respond_ledFrames, complete_state, State.emitLED_ledFrames]

/-- Every rule but those of PIX_CLEAR and PIX_SHOW keeps the LED history. -/
theorem effectOf_ledFrames {i : Instr} (hclear : i ≠ .pixClear) (hshow : i ≠ .pixShow) (s : State) :
    (effectOf i s).state.ledFrames = s.ledFrames := by
  cases i with
  | nop => rfl
  | regRead reg => rw [effectOf, regRead_state]
  | serFeed b => rw [effectOf, serFeed_eq]
  | serExtract => rw [effectOf, serExtract_ledFrames]
  | serDrain => rw [effectOf, serDrain, complete_state, drained, drainLoop_eq]
  | aiPoll =>
    rcases aiPoll_cases s with h | ⟨len, -, -, h | ⟨i, -, h⟩ | ⟨t, -, h⟩⟩ <;> rw [effectOf, h] <;> rfl
  | aiTake => rw [effectOf, aiTake_state]
  | pixSet idx col => rw [effectOf, pixSet, pixWrite_eq]
  | pixSetRgb idx r g b => rw [effectOf, pixWrite_eq]
  | pixClear => exact absurd rfl hclear
  | pixBright level => rfl
  | pixShow => exact absurd rfl hshow
  | pixRead off => rw [effectOf, pixRead_state]

/-- A pixel write leaves a buffer and its answer, whichever its target. -/
theorem pixWrite_respond_eq_answered (idx : BitVec 16) (r g b : Byte) (s : State) :
    ∃ m o v, (pixWrite idx r g b s).respond = answered { s with buf := m } o v [] := by
  rcases pixWrite_cases idx r g b s with ⟨-, h⟩ | ⟨-, h⟩ | ⟨-, h⟩ <;> rw [h]
  · exact ⟨_, _, _, by rw [complete_respond_eq_answered, place_eq]⟩
  · exact ⟨_, _, _, by rw [complete_respond_eq_answered, placeFirst_eq]⟩
  · exact ⟨s.buf, _, _, reject_respond_eq_answered ..⟩

/-- Settles O50, clause by clause from the three rules above. -/
theorem onlyClearAndShowEmit : Obligations.OnlyClearAndShowEmit := by
  refine fun i s => ⟨(effectOf i s).respond, exec_eq i s, fun hclear hshow => ?_, ?_, ?_⟩
  · rw [Effect.respond_ledFrames, effectOf_ledFrames hclear hshow]
  · rintro (rfl | rfl)
    · rw [effectOf, pixClear, complete_emitLED_respond_ledFrames, zeroActive_ledFrames]
      rfl
    · exact complete_emitLED_respond_ledFrames ..
  · rintro (⟨idx, col, rfl⟩ | ⟨idx, r, g, b, rfl⟩)
    · exact pixWrite_respond_eq_answered ..
    · exact pixWrite_respond_eq_answered ..

end Sys2Proof.Machine
end

section
/-!
The control commands (43_control.md R151, R152). NOP's row is format N, so its OPCODE spells one word; REG_READ
is ILLEGAL exactly of the numbers that `regValue` gives no register.
-/
namespace Sys2Proof

/-! ### NOP (R151) -/

/-- OPCODE 0x00 spells NOP, whatever the other bits are (R69). -/
theorem eq_nop_of_decode {w : Word} {i : Instr} (hop : opcodeField w = 0x00#8) (h : decode w = .ok i) :
    i = .nop := by
  obtain ⟨f, hrow, -⟩ := decode_eq_ok_iff.mp h
  rw [hop] at hrow
  exact (congrArg Prod.snd (Option.some.inj hrow)).symm

end Sys2Proof

namespace Sys2Proof.Machine

/-- Settles O26. A word of OPCODE 0x00 that decodes is NOP's own encoding, the all-zero word. -/
theorem nopDoesNothing : Obligations.NopDoesNothing := by
  refine ⟨fun s => ?_, rfl, fun w hop hne i hi => hne ?_⟩
  · rw [exec_eq, effectOf, complete_respond_eq_answered]
  · calc w = encode i := (encode_of_decode hi).symm
      _ = encode .nop := by rw [eq_nop_of_decode hop hi]
      _ = 0#64 := rfl

/-! ### REG_READ (R152) -/

/-- The reserved register numbers are those past 0x0C (R24). -/
theorem regValue_eq_none_iff {s : State} {reg : BitVec 8} : regValue s reg = none ↔ 0x0C < reg.toNat := by
  unfold regValue
  split
  case h_14 =>
    simp only [imp_false] at *
    simp only [true_iff]
    omega
  all_goals
    simp only [reduceCtorEq, false_iff]
    omega

theorem regRead_of_some {s : State} {reg : BitVec 8} {v : BitVec 32} (h : regValue s reg = some v) :
    regRead reg s = complete s .ok v.toNat [] := by
  rw [regRead, h]

theorem regRead_of_none {s : State} {reg : BitVec 8} (h : regValue s reg = none) :
    regRead reg s = reject s .illegal 0 := by
  rw [regRead, h]

/-- Settles O27, on either side of the last defined register number. -/
theorem regReadReturnsTheRegister : Obligations.RegReadReturnsTheRegister := by
  refine fun reg s => ⟨rfl, fun hdefined => ?_, fun hreserved => ?_⟩
  · obtain ⟨v, hv⟩ : ∃ v, regValue s reg = some v :=
      Option.ne_none_iff_exists'.mp fun hnone => Nat.not_lt.mpr hdefined (regValue_eq_none_iff.mp hnone)
    refine ⟨v, hv, ?_⟩
    rw [exec_eq, effectOf, regRead_of_some hv, complete_respond_eq_answered]
  · rw [exec_eq, effectOf, regRead_of_none (regValue_eq_none_iff.mpr hreserved), reject_respond_eq_answered]

end Sys2Proof.Machine
end

section
/-!
The machine right after reset (70_reset_and_hazards.md R177). Registers 0x06 to 0x0C are functions of the
parameters alone, so their layouts (10_state.md R31 to R37) are said of every state.
-/
namespace Sys2Proof.Machine

/-! ### The parameter registers (R31 to R37) -/

theorem modeCode_eq_ite (m : Mode) : modeCode m = if m = .grb then 0#2 else if m = .rgb then 1#2 else 2#2 := by
  cases m <;> rfl

theorem hexScopeBit_eq_ite (h : HexScope) : hexScopeBit h = if h = .last2 then 1#1 else 0#1 := by
  cases h <;> rfl

theorem regValue_cfgGeom (s : State) : regValue s 0x06#8 = some (s.cfg.start ++ s.cfg.count) := rfl

/-- The MODE and STRIDE fields by their tables (R32). -/
theorem regValue_cfgBuf (s : State) :
    regValue s 0x07#8 =
      some (0#10 ++ (if s.cfg.mode = .grb then 0#2 else if s.cfg.mode = .rgb then 1#2 else 2#2) ++
        (if s.cfg.mode = .rgbw then 4#4 else 3#4) ++ s.cfg.bufPixels) := by
  change some (regCfgBuf s) = _
  rw [regCfgBuf, modeCode_eq_ite, Params.stride_eq_ite, apply_ite (BitVec.ofNat 4)]

/-- MAXLEN reads 0x2000, since R7 fixes MAX_LEN (R33). -/
theorem regValue_cfgSync (s : State) : regValue s 0x08#8 = some (0x2000#16 ++ s.cfg.syncWord) := by
  change some (regCfgSync s) = _
  rw [regCfgSync, Config.maxLen_eq]

theorem regValue_cfgAi (s : State) :
    regValue s 0x09#8 = some (0#7 ++ BitVec.ofNat 9 s.cfg.statusNames.length ++ 0#9 ++ s.cfg.aiAddr) := rfl

theorem regValue_cfgAccCap (s : State) : regValue s 0x0A#8 = some (Cap.field s.cfg.accCap) := rfl

/-- The ASCII bytes "IOT", then version 1 (R36). -/
theorem regValue_id (s : State) : regValue s 0x0B#8 = some 0x494F5401#32 := rfl

/-- HEX_SCOPE stands in bit 0, below 31 zeros (R37). -/
theorem regValue_cfgMisc (s : State) :
    regValue s 0x0C#8 = some (if s.cfg.hexScope = .last2 then 1#32 else 0#32) := by
  change some (regCfgMisc s) = _
  rw [regCfgMisc, hexScopeBit_eq_ite, apply_ite (0#31 ++ ·)]
  rfl

/-! ### After reset (R177) -/

/-- The chosen configuration's reset state is one of the family over all configurations (R181). -/
theorem exists_resetWith_of_reset {s : State}
    (h : s = State.reset ∨ ∃ c : Config, s = State.resetWith c) : ∃ c : Config, s = State.resetWith c :=
  h.elim (fun h => ⟨Config.chosen, h⟩) id

/-- Every buffer byte is 0 after reset. -/
theorem State.memRead_resetWith (c : Config) (o : Nat) : (State.resetWith c).memRead o = 0#8 :=
  Memory.read_nil o

/-- Settles O17: the stored fields stand in `State.resetWith`, the buffer by `State.memRead_resetWith`, and the
registers read as they read in every state. -/
theorem resetValues : Obligations.ResetValues := by
  intro s hs
  obtain ⟨c, rfl⟩ := exists_resetWith_of_reset hs
  refine ⟨rfl, rfl, rfl, rfl, rfl, rfl, State.memRead_resetWith c, rfl, regValue_cfgGeom _, regValue_cfgBuf _,
    regValue_cfgSync _, regValue_cfgAi _, ?_, regValue_id _, regValue_cfgMisc _⟩
  rw [regValue_cfgAccCap]
  cases (State.resetWith c).cfg.accCap with
  | inf => rfl
  | bounded n => rfl

end Sys2Proof.Machine
end

section
/-!
Encoding and decoding are inverse (30_encoding.md R62 to R69): the fields of an encoded word are its operands and
its reserved bits are 0, so the decoder finds the row and the operands again.
-/
namespace Sys2Proof

/-! ### The fields of an encoded word (R63, R64) -/

/-- A field is read off bit by bit. -/
theorem extractLsb'_eq_of_getLsbD {n lo len : Nat} {w : BitVec n} {v : BitVec len}
    (h : ∀ k < len, w.getLsbD (lo + k) = v.getLsbD k) : w.extractLsb' lo len = v := by
  apply BitVec.eq_of_getLsbD_eq
  intro k hk
  rw [BitVec.getLsbD_extractLsb', h k hk, decide_eq_true hk, Bool.true_and]

@[simp] theorem lowByteField_formatB (op imm : Byte) : lowByteField (formatB op imm) = imm :=
  extractLsb'_eq_of_getLsbD fun k hk => by rw [getLsbD_formatB]; grind

@[simp] theorem idxField_formatIC (op : Byte) (idx : BitVec 16) (col : Byte) :
    idxField (formatIC op idx col) = idx :=
  extractLsb'_eq_of_getLsbD fun k hk => by rw [getLsbD_formatIC]; grind

@[simp] theorem lowByteField_formatIC (op : Byte) (idx : BitVec 16) (col : Byte) :
    lowByteField (formatIC op idx col) = col :=
  extractLsb'_eq_of_getLsbD fun k hk => by rw [getLsbD_formatIC]; grind

@[simp] theorem idxField_formatIRGB (op : Byte) (idx : BitVec 16) (r g b : Byte) :
    idxField (formatIRGB op idx r g b) = idx :=
  extractLsb'_eq_of_getLsbD fun k hk => by rw [getLsbD_formatIRGB]; grind

@[simp] theorem redField_formatIRGB (op : Byte) (idx : BitVec 16) (r g b : Byte) :
    redField (formatIRGB op idx r g b) = r :=
  extractLsb'_eq_of_getLsbD fun k hk => by rw [getLsbD_formatIRGB]; grind

@[simp] theorem greenField_formatIRGB (op : Byte) (idx : BitVec 16) (r g b : Byte) :
    greenField (formatIRGB op idx r g b) = g :=
  extractLsb'_eq_of_getLsbD fun k hk => by rw [getLsbD_formatIRGB]; grind

@[simp] theorem lowByteField_formatIRGB (op : Byte) (idx : BitVec 16) (r g b : Byte) :
    lowByteField (formatIRGB op idx r g b) = b :=
  extractLsb'_eq_of_getLsbD fun k hk => by rw [getLsbD_formatIRGB]; grind

@[simp] theorem offField_formatW (op : Byte) (off : BitVec 32) : offField (formatW op off) = off :=
  extractLsb'_eq_of_getLsbD fun k hk => by rw [getLsbD_formatW]; grind

/-! ### The reserved bits of an encoded word (R63) -/

/-- The converse of `getLsbD_of_reserves`. -/
theorem and_reservedMask_eq_zero {w : Word} {f : Format} (h : ∀ k, f.reserves k = true → w.getLsbD k = false) :
    w &&& reservedMask f = 0#64 := by
  apply BitVec.eq_of_getLsbD_eq
  intro k hk
  rw [BitVec.getLsbD_and, getLsbD_reservedMask f k hk]
  cases hr : f.reserves k with
  | false => simp
  | true => simp [h k hr]

/-- A word laid out in a format has zeros in its reserved bits. -/
theorem word_and_reservedMask (f : Format) (op : Byte) (w : Word) : f.word op w &&& reservedMask f = 0#64 := by
  apply and_reservedMask_eq_zero
  intro k hk
  cases f <;>
    simp only [Format.reserves, decide_eq_true_eq] at hk <;>
    simp only [Format.word, getLsbD_formatN, getLsbD_formatB, getLsbD_formatIC, getLsbD_formatIRGB,
      getLsbD_formatW] <;>
    grind

theorem opcodeField_word (f : Format) (op : Byte) (w : Word) : opcodeField (f.word op w) = op := by
  cases f with
  | n => exact opcodeField_formatN op
  | b => exact opcodeField_formatB op _
  | ic => exact opcodeField_formatIC op _ _
  | irgb => exact opcodeField_formatIRGB op _ _ _ _
  | w => exact opcodeField_formatW op _

/-- The row of a command: its OPCODE spells, of the command's own word, the command (R69). -/
theorem exists_opcodeRow_encode (i : Instr) : ∃ op f, opcodeRow op (encode i) = some (f, i) := by
  cases i with
  | nop => exact ⟨0x00#8, .n, rfl⟩
  | regRead reg => exact ⟨0x01#8, .b, by simp [opcodeRow, encode]⟩
  | serFeed b => exact ⟨0x10#8, .b, by simp [opcodeRow, encode]⟩
  | serExtract => exact ⟨0x11#8, .n, rfl⟩
  | serDrain => exact ⟨0x12#8, .n, rfl⟩
  | aiPoll => exact ⟨0x20#8, .n, rfl⟩
  | aiTake => exact ⟨0x21#8, .n, rfl⟩
  | pixSet idx col => exact ⟨0x30#8, .ic, by simp [opcodeRow, encode]⟩
  | pixSetRgb idx r g b => exact ⟨0x31#8, .irgb, by simp [opcodeRow, encode]⟩
  | pixClear => exact ⟨0x32#8, .n, rfl⟩
  | pixBright level => exact ⟨0x33#8, .b, by simp [opcodeRow, encode]⟩
  | pixShow => exact ⟨0x34#8, .n, rfl⟩
  | pixRead off => exact ⟨0x35#8, .w, by simp [opcodeRow, encode]⟩

/-- The word of a command decodes to it: by its row it is a word of the row's format. -/
theorem decode_encode (i : Instr) : decode (encode i) = .ok i := by
  obtain ⟨op, f, hrow⟩ := exists_opcodeRow_encode i
  have hword : encode i = f.word op (encode i) := encode_of_opcodeRow hrow
  refine decode_eq_ok_iff.mpr ⟨f, ?_, ?_⟩
  · have hop : opcodeField (encode i) = op := by rw [hword, opcodeField_word]
    rw [hop, hrow]
  · rw [hword, word_and_reservedMask]

/-- Settles O1, from the two directions `encode_of_decode` and `decode_encode`. -/
theorem decodeExactlyInvertsEncode : Obligations.DecodeExactlyInvertsEncode :=
  fun _ i => ⟨encode_of_decode, fun h => h ▸ decode_encode i⟩

/-- Settles O3, word by word. -/
theorem workedEncodingsDecode : Obligations.WorkedEncodingsDecode := by
  unfold Obligations.WorkedEncodingsDecode
  decide

end Sys2Proof
end

section
/-!
The byte link and the assembler (30_encoding.md R78 to R84). Eight bytes of a word joined again are the word; the
line printed for a command has fields that fit, so the assembler gives the command's own word back.
-/
namespace Sys2Proof

/-! ### Words as bytes (R84, 20_memory.md R48) -/

/-- Fields side by side, as numbers. -/
theorem toNat_append_eq {m n : Nat} (x : BitVec m) (y : BitVec n) :
    (x ++ y).toNat = x.toNat * 2 ^ n + y.toNat := by
  rw [BitVec.toNat_append, ← Nat.shiftLeft_add_eq_or_of_lt y.isLt, Nat.shiftLeft_eq]

/-- The byte of `v` whose lowest bit is bit `k`, as a number. -/
theorem toNat_extract_byte {n : Nat} (v : BitVec n) (k : Nat) :
    (v.extractLsb' k 8).toNat = v.toNat / 2 ^ k % 256 := by
  rw [BitVec.extractLsb'_toNat, Nat.shiftRight_eq_div_pow]

theorem wordOfBytes_wordBytes (w : Word) :
    wordOfBytes (w.extractLsb' 56 8) (w.extractLsb' 48 8) (w.extractLsb' 40 8) (w.extractLsb' 32 8)
      (w.extractLsb' 24 8) (w.extractLsb' 16 8) (w.extractLsb' 8 8) (w.extractLsb' 0 8) = w := by
  apply BitVec.eq_of_getLsbD_eq
  intro k hk
  simp only [wordOfBytes, BitVec.getLsbD_append, BitVec.getLsbD_extractLsb']
  grind

/-- The eight bytes are the base-256 digits of the word, most significant first. -/
theorem toNat_eq_wordBytes (w : Word) :
    w.toNat = (((((((w.extractLsb' 56 8).toNat * 256 + (w.extractLsb' 48 8).toNat) * 256 +
      (w.extractLsb' 40 8).toNat) * 256 + (w.extractLsb' 32 8).toNat) * 256 +
      (w.extractLsb' 24 8).toNat) * 256 + (w.extractLsb' 16 8).toNat) * 256 +
      (w.extractLsb' 8 8).toNat) * 256 + (w.extractLsb' 0 8).toNat := by
  have hw := w.isLt
  simp only [toNat_extract_byte]
  omega

/-- The four bytes are the base-256 digits of the value, most significant first. -/
theorem toNat_eq_value32Bytes (v : BitVec 32) :
    v.toNat = (((v.extractLsb' 24 8).toNat * 256 + (v.extractLsb' 16 8).toNat) * 256 +
      (v.extractLsb' 8 8).toNat) * 256 + (v.extractLsb' 0 8).toNat := by
  have hv := v.isLt
  simp only [toNat_extract_byte]
  omega

/-- The decoder of a byte string reads a word back from its bytes. -/
theorem decodeTableWord_encode (i : Instr) : decodeTableWord 64 (encode i).toNat = some i := by
  have hw : BitVec.ofNat 64 ((encode i).toNat % 2 ^ 64) = encode i := by
    rw [Nat.mod_eq_of_lt (encode i).isLt, BitVec.ofNat_toNat, BitVec.setWidth_eq]
  rw [decodeTableWord, hw, wordBytes, decodeBytes, wordOfBytes_wordBytes, decode_encode]

end Sys2Proof

namespace Sys2Proof.Machine

/-! ### The stream of a run of words (R84; log 15) -/

/-- Fewer than eight bytes are no word yet. -/
theorem wordsOfLink_of_lt {part : Bytes} (h : part.length < 8) : wordsOfLink part = ([], part) := by
  unfold wordsOfLink
  split
  · simp only [List.length_cons] at h
    omega
  · rfl

/-- The first eight bytes are the first word. -/
theorem wordsOfLink_wordBytes_append (w : Word) (rest : Bytes) :
    wordsOfLink (wordBytes w ++ rest) = (w :: (wordsOfLink rest).1, (wordsOfLink rest).2) := by
  simp only [wordBytes, List.cons_append, List.nil_append]
  rw [wordsOfLink, wordOfBytes_wordBytes]

theorem linkOfWords_cons (w : Word) (ws : List Word) :
    linkOfWords (w :: ws) = wordBytes w ++ linkOfWords ws := List.flatMap_cons

theorem wordsOfLink_linkOfWords_append (ws : List Word) {part : Bytes} (h : part.length < 8) :
    wordsOfLink (linkOfWords ws ++ part) = (ws, part) := by
  induction ws with
  | nil => exact wordsOfLink_of_lt h
  | cons w ws ih => rw [linkOfWords_cons, List.append_assoc, wordsOfLink_wordBytes_append, ih]

/-- Settles O4: the bytes are base-256 digits, of a word, a value and a length alike, and the stream's round trip is
`wordsOfLink_linkOfWords_append`. -/
theorem byteLinkCarriesWordsAndResponses : Obligations.ByteLinkCarriesWordsAndResponses := by
  refine ⟨fun w => ⟨_, _, _, _, _, _, _, _, rfl, toNat_eq_wordBytes w⟩, rfl, linkOfWords_cons,
    fun ws _ h => wordsOfLink_linkOfWords_append ws h,
    fun r => ⟨_, _, _, _, _, _, _, _, rfl, toNat_eq_value32Bytes r.value, ?_⟩⟩
  rw [← BitVec.toNat_ofNat]
  exact toNat_eq_value32Bytes _

/-! ### Assembler and disassembler (R78 to R81) -/

/-- A field printed as a number reads back as the field. -/
theorem fieldOperand_numOperand {w : Nat} (v : BitVec w) : fieldOperand w (numOperand v) = some v :=
  fieldOperand_of_field v

theorem indexOperand_numOperand (c : Config) (v : BitVec 16) : indexOperand c (numOperand v) = some v :=
  fieldOperand_of_field v

/-- The line of a command assembles to the command's word, under every configuration. -/
theorem assemble_line (c : Config) (i : Instr) :
    assemble c { mnemonic := mnemonicOf i, operands := operandsOf i } = some [encode i] := by
  cases i <;>
    simp [assemble, mnemonicOf, operandsOf, oneWord, fieldOperand_numOperand, indexOperand_numOperand]

/-- Settles O5: a command's line by `assemble_line`, an ILLEGAL word by its `.word`. -/
theorem assemblerReadsBackDisassembly : Obligations.AssemblerReadsBackDisassembly := by
  intro c w
  unfold disassemble
  cases hd : decode w with
  | ok i => rw [← encode_of_decode hd]; exact assemble_line c i
  | error e => simp [assemble, fieldOperand_numOperand]

/-- Settles O6: the operands of a line fit (`fieldOperand_of_field`), or one does not (`fieldOperand_of_large`). -/
theorem pseudoCommandsExpand : Obligations.PseudoCommandsExpand := by
  refine fun c => ⟨fun col r g b s => ?_, fun n x y z => ⟨fun h8 => ?_, fun h16 => ?_, fun h32 => ?_⟩⟩
  · simp [assemble, indexOperand, fieldOperand_of_field, oneWord, feedWords]
  · have hn : fieldOperand 8 (.num n) = none := fieldOperand_of_large h8
    simp [assemble, hn]
  · have hn : fieldOperand 16 (.num n) = none := fieldOperand_of_large h16
    simp [assemble, indexOperand_num, hn]
  · have hn : fieldOperand 32 (.num n) = none := fieldOperand_of_large h32
    simp [assemble, hn]

end Sys2Proof.Machine
end

section
/-!
AI_POLL check by check (41_ai_framer.md R109 to R111, R114): one rule for each outcome of each step, for every
answer of the transport; and the checksum of a corrupted frame.
-/
namespace Sys2Proof.Machine

open Claims

/-! ### The payload (R110, R111) -/

theorem decodeStatus_of_lt {i : Byte} {s : State} (h : i.toNat < s.cfg.nStatus) :
    decodeStatus i s = complete { s with slot := .status i } .aiOkStatus i.toNat [] :=
  if_neg (Nat.not_le.mpr h)

theorem decodeStatus_of_ge {i : Byte} {s : State} (h : s.cfg.nStatus ≤ i.toNat) :
    decodeStatus i s = reject s .aiBadStatusIndex i.toNat := if_pos h

theorem decodeJson_of_none {payload : Bytes} (h : Config.jsonCanon payload = none) (len : Nat) (s : State) :
    decodeJson payload len s = reject s .aiBadJson len := by
  rw [decodeJson, h]

theorem decodeJson_of_allowed {payload t : Bytes} (h : Config.jsonCanon payload = some t) {s : State}
    (hcap : Cap.allows s.cfg.slotCap t.length = true) (len : Nat) :
    decodeJson payload len s = complete { s with slot := .json t } .aiOkJson len [] := by
  simp only [decodeJson, h]
  exact if_pos hcap

theorem decodeJson_of_oversize {payload t : Bytes} (h : Config.jsonCanon payload = some t) {s : State}
    (hcap : ¬Cap.allows s.cfg.slotCap t.length = true) (len : Nat) :
    decodeJson payload len s = reject s .aiBadJson len := by
  simp only [decodeJson, h]
  exact if_neg hcap

/-! ### The checksum (R109 step 5) -/

theorem decodeFrame_of_bad_checksum {payload : Bytes} {ck : Byte} (h : xorFold payload ≠ ck) (len : Nat)
    (s : State) :
    decodeFrame payload ck len s = reject s .aiBadChecksum ((xorFold payload).toNat * 256 + ck.toNat) := by
  have hck : ¬checksumOk payload ck = true := fun hok => h ((checksumOk_iff payload ck).mp hok)
  have hvalue : (xorFold payload).toNat <<< 8 ||| ck.toNat = (xorFold payload).toNat * 256 + ck.toNat := by
    rw [← Nat.shiftLeft_add_eq_or_of_lt ck.isLt, Nat.shiftLeft_eq]
  rw [decodeFrame, if_pos (by simpa using hck), hvalue]

theorem decodeFrame_of_status {i ck : Byte} (h : xorFold [i] = ck) (s : State) :
    decodeFrame [i] ck [i].length s = decodeStatus i s := by
  rw [decodeFrame, if_neg (by simp [(checksumOk_iff [i] ck).mpr h]), if_pos List.length_singleton]
  rfl

theorem decodeFrame_of_json {payload : Bytes} {ck : Byte} (h : xorFold payload = ck) {len : Nat} (hlen : 1 < len)
    (s : State) : decodeFrame payload ck len s = decodeJson payload len s := by
  rw [decodeFrame, if_neg (by simp [(checksumOk_iff payload ck).mpr h]), if_neg (Nat.ne_of_gt hlen)]

/-! ### The two reads (R109 steps 1 to 4) -/

theorem readBody_of_short {s : State} {len : Nat} (hlen : len ≤ 8192) (h : (s.upcoming 0).length < len + 1) :
    readBody len s = reject (s.afterI2C (len + 1)) .aiBodyShort (s.upcoming 0).length := by
  have hdata : s.i2cData (len + 1) = s.upcoming 0 := List.take_of_length_le (by omega)
  have hsat : sat32 (s.upcoming 0).length = (s.upcoming 0).length := by
    unfold sat32
    omega
  rw [readBody, hdata, if_pos h, hsat]

theorem readBody_of_frame {s : State} {payload : Bytes} {ck : Byte} {more : Bytes}
    (h : s.upcoming 0 = payload ++ ck :: more) :
    readBody payload.length s =
      decodeFrame payload ck payload.length (s.afterI2C (payload.length + 1)) := by
  have hdata : s.i2cData (payload.length + 1) = payload ++ [ck] := by
    rw [State.i2cData, h, List.take_length_add_append]
    rfl
  rw [readBody, hdata, if_neg (by simp)]
  simp

theorem aiPoll_of_short {s : State} (h : (s.upcoming 0).length < 4) :
    aiPoll s = reject (s.afterI2C 4) .aiHdrShort (s.upcoming 0).length := by
  have hdata : s.i2cData 4 = s.upcoming 0 := List.take_of_length_le (by omega)
  rw [aiPoll, hdata, if_pos h]

/-- A big-endian pair of bytes as a number (R106). -/
theorem toNat_append_byte (h l : Byte) : (h ++ l).toNat = h.toNat * 256 + l.toNat := toNat_append_eq h l

theorem lengthOk_iff (c : Config) (len : Nat) : lengthOk c len = true ↔ 1 ≤ len ∧ len ≤ 8192 := by
  rw [lengthOk, decide_eq_true_iff, Config.maxLen_eq]
  rfl

section Header
variable {s : State} {h0 h1 h2 h3 : Byte} {excess : Bytes}

theorem i2cData_of_header (h : s.upcoming 0 = h0 :: h1 :: h2 :: h3 :: excess) :
    s.i2cData 4 = [h0, h1, h2, h3] := by
  rw [State.i2cData, h]
  rfl

/-- With a whole header AI_POLL checks the sync word, then the length, then reads the body. -/
theorem aiPoll_of_header (h : s.upcoming 0 = h0 :: h1 :: h2 :: h3 :: excess) :
    aiPoll s =
      if h0.toNat * 256 + h1.toNat ≠ s.cfg.syncWord.toNat then
        reject (s.afterI2C 4) .aiBadSync (h0.toNat * 256 + h1.toNat)
      else if ¬(1 ≤ h2.toNat * 256 + h3.toNat ∧ h2.toNat * 256 + h3.toNat ≤ 8192) then
        reject (s.afterI2C 4) .aiBadLength (h2.toNat * 256 + h3.toNat)
      else readBody (h2.toNat * 256 + h3.toNat) (s.afterI2C 4) := by
  have hsync : headerSync [h0, h1, h2, h3] = h0 ++ h1 := rfl
  have hlen : headerLen [h0, h1, h2, h3] = h2 ++ h3 := rfl
  rw [aiPoll, i2cData_of_header h, hsync, hlen, if_neg (by simp)]
  simp only [ne_eq, ← BitVec.toNat_inj, toNat_append_byte, ← lengthOk_iff s.cfg, Bool.not_eq_true,
    Bool.not_eq_true']

theorem aiPoll_of_bad_sync (h : s.upcoming 0 = h0 :: h1 :: h2 :: h3 :: excess)
    (hsync : h0.toNat * 256 + h1.toNat ≠ s.cfg.syncWord.toNat) :
    aiPoll s = reject (s.afterI2C 4) .aiBadSync (h0.toNat * 256 + h1.toNat) := by
  rw [aiPoll_of_header h, if_pos hsync]

theorem aiPoll_of_bad_length (h : s.upcoming 0 = h0 :: h1 :: h2 :: h3 :: excess)
    (hsync : h0.toNat * 256 + h1.toNat = s.cfg.syncWord.toNat)
    (hlen : h2.toNat * 256 + h3.toNat = 0 ∨ 8192 < h2.toNat * 256 + h3.toNat) :
    aiPoll s = reject (s.afterI2C 4) .aiBadLength (h2.toNat * 256 + h3.toNat) := by
  rw [aiPoll_of_header h, if_neg (not_not.mpr hsync), if_pos (by omega)]

theorem aiPoll_of_good_header (h : s.upcoming 0 = h0 :: h1 :: h2 :: h3 :: excess)
    (hsync : h0.toNat * 256 + h1.toNat = s.cfg.syncWord.toNat)
    (hlo : 1 ≤ h2.toNat * 256 + h3.toNat) (hhi : h2.toNat * 256 + h3.toNat ≤ 8192) :
    aiPoll s = readBody (h2.toNat * 256 + h3.toNat) (s.afterI2C 4) := by
  rw [aiPoll_of_header h, if_neg (not_not.mpr hsync), if_neg (not_not.mpr ⟨hlo, hhi⟩)]

end Header

/-- Settles O40: `upcoming_afterI2C`, and the fields that `State.afterI2C` writes. -/
theorem transportReadConsumesOneAnswer : Obligations.TransportReadConsumesOneAnswer :=
  fun s n k => ⟨s.upcoming_afterI2C n k, rfl, rfl, rfl, rfl⟩

/-- Settles O39: the header's rules, then the body's, then the payload's. -/
theorem aiPollRunsItsSteps : Obligations.AiPollRunsItsSteps := by
  intro s
  refine ⟨rfl, fun hshort => ?_, fun h0 h1 h2 h3 excess hup sync len hsync hlen => ?_⟩
  · rw [exec_eq, effectOf, aiPoll_of_short hshort, reject_respond_eq_answered]
  subst hsync hlen
  refine ⟨fun hbad => ?_, fun hgood hbad => ?_, fun hgood hlo hhi hshort => ?_,
    fun payload ck more hgood hlo hhi hpay hup1 s₂ hs₂ => ?_⟩
  · rw [exec_eq, effectOf, aiPoll_of_bad_sync hup hbad, reject_respond_eq_answered]
  · rw [exec_eq, effectOf, aiPoll_of_bad_length hup hgood hbad, reject_respond_eq_answered]
  · rw [← State.upcoming_afterI2C s 4] at hshort ⊢
    rw [exec_eq, effectOf, aiPoll_of_good_header hup hgood hlo hhi, readBody_of_short hhi hshort,
      reject_respond_eq_answered]
  · rw [← State.upcoming_afterI2C s 4] at hup1
    have hframe : aiPoll s = decodeFrame payload ck (h2.toNat * 256 + h3.toNat) s₂ := by
      rw [aiPoll_of_good_header hup hgood hlo hhi, hs₂, ← hpay, readBody_of_frame hup1]
    have hcfg : s₂.cfg = s.cfg := by rw [hs₂]; rfl
    rw [exec_eq, effectOf, hframe, ← hpay, ← hcfg]
    refine ⟨fun hck => ?_, fun hck i hi => ?_, fun hck hjson => ?_⟩
    · rw [decodeFrame_of_bad_checksum hck, reject_respond_eq_answered]
    · subst hi
      rw [decodeFrame_of_status hck]
      by_cases hin : i.toNat < s₂.cfg.statusNames.length
      · rw [decodeStatus_of_lt hin, if_pos hin, complete_respond_eq_answered]
      · rw [decodeStatus_of_ge (Nat.not_lt.mp hin), if_neg hin, reject_respond_eq_answered]
    · rw [decodeFrame_of_json hck hjson]
      cases hcanon : Config.jsonCanon payload with
      | none => rw [decodeJson_of_none hcanon, reject_respond_eq_answered]
      | some t =>
        by_cases hcap : Cap.allows s₂.cfg.slotCap t.length = true
        · rw [decodeJson_of_allowed hcanon hcap, complete_respond_eq_answered]
          exact congrArg Host.Outcome.next (if_pos hcap).symm
        · rw [decodeJson_of_oversize hcanon hcap, reject_respond_eq_answered]
          exact congrArg Host.Outcome.next (if_neg hcap).symm

/-! ### A corrupted frame (R114) -/

/-- Changing byte `j` by `x` changes the exclusive or of all bytes by `x`. -/
theorem xorFold_modify {l : Bytes} {j : Nat} (hj : j < l.length) (x : Byte) :
    xorFold (l.modify j (· ^^^ x)) = xorFold l ^^^ x := by
  induction l generalizing j with
  | nil => simp at hj
  | cons b l ih =>
    cases j with
    | zero => rw [List.modify_zero_cons, xorFold_cons, xorFold_cons]; ac_rfl
    | succ j =>
      rw [List.modify_succ_cons, xorFold_cons, xorFold_cons, ih (Nat.lt_of_succ_lt_succ hj), BitVec.xor_assoc]

/-- A byte with one bit set is not 0. -/
theorem ofNat_two_pow_ne_zero {k : Nat} (hk : k < 8) : BitVec.ofNat 8 (2 ^ k) ≠ 0#8 := by
  interval_cases k <;> decide

/-- A valid frame's bytes and checksum fold to 0; with one of them changed they do not, so the checksum that
arrives is not the payload's. -/
theorem xorFold_ne_of_modify {payload payload' : Bytes} {ck' x : Byte} {j : Nat} (hj : j ≤ payload.length)
    (hx : x ≠ 0#8) (h : (payload ++ [xorFold payload]).modify j (· ^^^ x) = payload' ++ [ck']) :
    xorFold payload' ≠ ck' := by
  intro hck
  have hsingle (b : Byte) : xorFold [b] = b := by rw [xorFold_cons]; exact BitVec.xor_zero
  have hfold := xorFold_modify (l := payload ++ [xorFold payload]) (j := j) (by simp; omega) x
  rw [h, xorFold_append, xorFold_append, hsingle, hsingle, hck, BitVec.xor_self, BitVec.xor_self,
    BitVec.zero_xor] at hfold
  exact hx hfold.symm

/-- Settles O41: the corrupted body is again a payload and a checksum, which no longer agree
(`xorFold_ne_of_modify`), and AI_POLL's rule for that (O39) leaves the slot alone. -/
theorem singleBitCorruptionIsRejected : Obligations.SingleBitCorruptionIsRejected := by
  intro s h0 h1 h2 h3 payload j k hup hsync hlo hhi hlen hj hk hup1
  obtain ⟨payload', ck', hbody⟩ :
      ∃ payload' ck', (payload ++ [xorFold payload]).modify j (· ^^^ BitVec.ofNat 8 (2 ^ k)) =
        payload' ++ [ck'] :=
    ⟨_, _, (List.dropLast_append_getLast (by simp [← List.length_eq_zero_iff])).symm⟩
  have hck := xorFold_ne_of_modify hj (ofNat_two_pow_ne_zero hk) hbody
  have hlen' : payload'.length = payload.length := by
    simpa using (congrArg List.length hbody).symm
  rw [hbody] at hup1
  have hsync' : h0.toNat * 256 + h1.toNat = s.cfg.syncWord.toNat := by rw [← toNat_append_byte, hsync]
  obtain ⟨-, -, hheader⟩ := aiPollRunsItsSteps s
  obtain ⟨-, -, -, hpoll⟩ := hheader h0 h1 h2 h3 [] hup _ _ rfl rfl
  obtain ⟨hreject, -⟩ := hpoll payload' ck' [] hsync' (hlen ▸ hlo) (hlen ▸ hhi) (hlen'.trans hlen) hup1 _ rfl
  exact ⟨_, hreject hck, rfl, rfl⟩

end Sys2Proof.Machine
end

section
/-!
Runs of commands, and the serial framer over a run (40_serial_framer.md R92, R96). `drainedTo` is where a state's
queue ends once it is drained: SER_EXTRACT and SER_DRAIN leave it alone and a byte fed moves it by `feedDrained`,
so it depends on the bytes fed and not on the commands between them.
-/
namespace Sys2Proof.Machine

open Claims

/-! ### A run of commands (20_memory.md R51) -/

/-- The state after the commands `is`, one after another. -/
def runAll (is : List Instr) (s : State) : State := is.foldl (fun t i => (effectOf i t).respond) s

@[simp] theorem runAll_nil (s : State) : runAll [] s = s := rfl

theorem runAll_append (is js : List Instr) (s : State) :
    runAll (is ++ js) s = runAll js (runAll is s) := List.foldl_append

/-- No command stops, so neither does a run. -/
theorem execAll_eq (is : List Instr) (s : State) : execAll is s = .next (runAll is s) := by
  induction is generalizing s with
  | nil => rfl
  | cons i is ih =>
    rw [execAll, exec_eq]
    exact ih _

/-- What every command of a run keeps, the run keeps. -/
theorem runAll_keeps {P : State → Prop} {is : List Instr} (hP : ∀ i ∈ is, ∀ s, P s → P (effectOf i s).respond)
    {s : State} (hs : P s) : P (runAll is s) := by
  induction is generalizing s with
  | nil => exact hs
  | cons i is ih =>
    obtain ⟨hi, his⟩ := List.forall_mem_cons.mp hP
    exact ih his (hi s hs)

/-! ### One byte more on frames and a fragment (R73, R90) -/

theorem accOf_eq_append (bodies : List Bytes) (tail : Bytes) : accOf bodies tail = accOf bodies [] ++ tail := by
  simp [accOf]

/-- A byte that is no `'$'` extends the fragment. -/
theorem accOf_append_byte (bodies : List Bytes) (tail : Bytes) (b : Byte) :
    accOf bodies tail ++ [b] = accOf bodies (tail ++ [b]) := List.append_assoc ..

/-- A `'$'` ends the fragment and makes it a frame's body. -/
theorem accOf_append_dollar (bodies : List Bytes) (tail : Bytes) :
    accOf bodies tail ++ [dollar] = accOf (bodies ++ [tail]) [] := by
  simp [accOf]

/-- The queued frames end in the last `'$'`. -/
theorem accOf_nil_ends (bodies : List Bytes) : accOf bodies [] = [] ∨ (accOf bodies []).getLast? = some dollar := by
  rcases List.eq_nil_or_concat bodies with rfl | ⟨front, body, rfl⟩
  · exact .inl rfl
  · right
    rw [List.concat_eq_append, ← accOf_append_dollar, List.getLast?_concat]

/-- An overflow keeps the queued frames and drops the fragment (R91). -/
theorem serFeed_of_full_accOf {s : State} {bodies : List Bytes} {tail : Bytes} (hdisc : s.disc = false)
    (hfull : Cap.room s.cfg.accCap s.acc.length = false) (hacc : s.acc = accOf bodies tail)
    (htail : dollar ∉ tail) (b : Byte) :
    serFeed b s =
      reject { s with acc := accOf bodies [], disc := if b = dollar then false else true } .serOverflow
        (sat32 tail.length) :=
  serFeed_of_full hdisc hfull (hacc.trans (accOf_eq_append bodies tail)) htail (accOf_nil_ends bodies) b

/-! ### Where a queue ends when drained (R96) -/

/-- The fragment and the telemetry registers once every queued frame has been taken. -/
def drainedTo (s : State) : Bytes × BitVec 16 × Bool :=
  ((drained s).1.acc, (drained s).1.telemValue, (drained s).1.telemValid)

/-- What one byte more does to the drained end: a `'$'` takes the fragment as a frame. -/
def feedDrained (scope : HexScope) (p : Bytes × BitVec 16 × Bool) (b : Byte) : Bytes × BitVec 16 × Bool :=
  if b = dollar then ([], telemAfter (acceptedSamples scope [p.1]) p.2) else (p.1 ++ [b], p.2)

theorem drainedTo_accOf {s : State} {bodies : List Bytes} {tail : Bytes} (hacc : s.acc = accOf bodies tail)
    (hbodies : ∀ b ∈ bodies, dollar ∉ b) (htail : dollar ∉ tail) :
    drainedTo s =
      (tail, telemAfter (acceptedSamples s.cfg.hexScope bodies) (s.telemValue, s.telemValid)) := by
  rw [drainedTo, drained_accOf hacc hbodies htail]
  rfl

theorem drainedTo_serFeed {s : State} (hcap : s.cfg.accCap = .inf) (hdisc : s.disc = false) (b : Byte) :
    drainedTo (serFeed b s).respond = feedDrained s.cfg.hexScope (drainedTo s) b := by
  obtain ⟨bodies, tail, hacc, hbodies, htail⟩ := exists_accOf s.acc
  have hroom : Cap.room s.cfg.accCap s.acc.length = true := by rw [hcap]; rfl
  rw [serFeed_of_room hdisc hroom, drainedTo_accOf hacc hbodies htail, feedDrained]
  by_cases hb : b = dollar
  · have hacc' : s.acc ++ [b] = accOf (bodies ++ [tail]) [] := by rw [hacc, hb, accOf_append_dollar]
    rw [if_pos hb, drainedTo_accOf hacc' (by simpa [or_imp, forall_and] using ⟨hbodies, htail⟩) (by simp),
      acceptedSamples, List.filterMap_append, telemAfter_append]
    rfl
  · have hacc' : s.acc ++ [b] = accOf bodies (tail ++ [b]) := by rw [hacc, accOf_append_byte]
    rw [if_neg hb, drainedTo_accOf hacc' hbodies (by simp [htail, Ne.symm hb])]
    rfl

theorem drainedTo_serExtract (s : State) : drainedTo (serExtract s).respond = drainedTo s := by
  obtain ⟨bodies, tail, hacc, hbodies, htail⟩ := exists_accOf s.acc
  cases bodies with
  | nil =>
    have hnone : dollar ∉ s.acc := by rw [hacc]; exact htail
    rw [serExtract_none hnone, drainedTo_accOf hacc hbodies htail]
    exact drainedTo_accOf hacc hbodies htail
  | cons body bodies =>
    obtain ⟨hbody, hrest⟩ := List.forall_mem_cons.mp hbodies
    have hframe : s.acc = body ++ dollar :: accOf bodies tail := hacc.trans (accOf_cons ..)
    have hstate := (congrArg Effect.state (serExtract_of_frame hframe hbody)).trans (takeFrame_state ..)
    have hacc' : (serExtract s).respond.acc = accOf bodies tail := by rw [Effect.respond_acc, hstate]; rfl
    rw [drainedTo_accOf hacc hbodies htail, acceptedSamples_cons, telemAfter_append,
      drainedTo_accOf hacc' hrest htail, Effect.respond_cfg, Effect.respond_telemValue,
      Effect.respond_telemValid, hstate]
    rfl

theorem drainedTo_serDrain (s : State) : drainedTo (serDrain s).respond = drainedTo s :=
  drainedTo_accOf (bodies := []) rfl (by simp) (drainLoop_no_dollar le_rfl 0 0)

theorem serDrain_disc (s : State) : (serDrain s).state.disc = s.disc := by
  rw [serDrain, complete_state, drained, drainLoop_eq]

/-- The byte that a command feeds. -/
def fedByte : Instr → Option Byte
  | .serFeed b => some b
  | _ => none

/-- A serial command without a cap: no discard mode, and the drained end moved by the byte fed, if any. -/
theorem drainedTo_effectOf {i : Instr} (hi : isSerial i) {s : State} (hcap : s.cfg.accCap = .inf)
    (hdisc : s.disc = false) :
    (effectOf i s).respond.disc = false ∧
      drainedTo (effectOf i s).respond =
        (fedByte i).toList.foldl (feedDrained s.cfg.hexScope) (drainedTo s) := by
  rcases hi with rfl | rfl | ⟨b, rfl⟩
  · exact ⟨(serExtract_disc s).trans hdisc, drainedTo_serExtract s⟩
  · exact ⟨(serDrain_disc s).trans hdisc, drainedTo_serDrain s⟩
  · have hroom : Cap.room s.cfg.accCap s.acc.length = true := by rw [hcap]; rfl
    refine ⟨?_, drainedTo_serFeed hcap hdisc b⟩
    rw [effectOf, serFeed_of_room hdisc hroom]
    exact hdisc

/-- The drained end of a run without a cap is that of the bytes fed. -/
theorem drainedTo_runAll {is : List Instr} (his : ∀ i ∈ is, isSerial i) {s : State}
    (hcap : s.cfg.accCap = .inf) (hdisc : s.disc = false) :
    (runAll is s).disc = false ∧
      drainedTo (runAll is s) = (is.filterMap fedByte).foldl (feedDrained s.cfg.hexScope) (drainedTo s) := by
  induction is generalizing s with
  | nil => exact ⟨hdisc, rfl⟩
  | cons i is ih =>
    obtain ⟨hi, his⟩ := List.forall_mem_cons.mp his
    obtain ⟨hdisc', hend⟩ := drainedTo_effectOf hi hcap hdisc
    have hcfg : (effectOf i s).respond.cfg = s.cfg := (effectOf_frame i s).1
    have hrun := ih his (s := (effectOf i s).respond) (by rw [hcfg, hcap]) hdisc'
    rw [hcfg, hend, ← List.foldl_append] at hrun
    have hfed : (fedByte i).toList ++ is.filterMap fedByte = (i :: is).filterMap fedByte := by
      rw [List.filterMap_cons]
      cases fedByte i <;> rfl
    rwa [hfed] at hrun

/-- A drain brings the serial state to its drained end. -/
theorem serialView_serDrain {s : State} (hdisc : s.disc = false) :
    serialView (serDrain s).respond = ((drainedTo s).1, false, (drainedTo s).2) := by
  rw [serialView, Effect.respond_disc, serDrain_disc, hdisc]
  rfl

/-- Settles O36: both runs drain to the end that the stream moves the start to (`drainedTo_runAll`). -/
theorem chunkBoundariesDoNotMatter : Obligations.ChunkBoundariesDoNotMatter := by
  intro is stream s hcap hdisc his hstream
  have hwhole : (stream.map Instr.serFeed).filterMap fedByte = stream := by
    rw [List.filterMap_map]
    exact List.filterMap_some
  have hserial : ∀ i ∈ stream.map Instr.serFeed, isSerial i := by
    rintro i hi
    obtain ⟨b, -, rfl⟩ := List.mem_map.mp hi
    exact .inr (.inr ⟨b, rfl⟩)
  obtain ⟨hdisc₁, hend₁⟩ := drainedTo_runAll his hcap hdisc
  obtain ⟨hdisc₂, hend₂⟩ := drainedTo_runAll hserial hcap hdisc
  refine ⟨_, _, execAll_eq _ s, execAll_eq _ s, ?_⟩
  rw [runAll_append, runAll_append]
  calc serialView (serDrain (runAll is s)).respond
      = ((drainedTo (runAll is s)).1, false, (drainedTo (runAll is s)).2) := serialView_serDrain hdisc₁
    _ = ((drainedTo (runAll (stream.map .serFeed) s)).1, false,
          (drainedTo (runAll (stream.map .serFeed) s)).2) := by
        rw [hend₁, hend₂, hwhole, hstream]
        rfl
    _ = serialView (serDrain (runAll (stream.map .serFeed) s)).respond := (serialView_serDrain hdisc₂).symm

/-! ### Overflow (R92) -/

theorem bodiesOf_of_no_dollar {tail : Bytes} (h : dollar ∉ tail) : bodiesOf tail = [] := by
  cases tail with
  | nil => rfl
  | cons b bs =>
    obtain ⟨hb, hbs⟩ := List.ne_and_not_mem_of_not_mem_cons h
    rw [bodiesOf, if_neg hb.symm, if_neg hbs]

theorem bodiesOf_frame {body : Bytes} (h : dollar ∉ body) (rest : Bytes) :
    bodiesOf (body ++ dollar :: rest) = body :: bodiesOf rest := by
  induction body with
  | nil => rw [List.nil_append, bodiesOf, if_pos rfl]
  | cons b bs ih =>
    obtain ⟨hb, hbs⟩ := List.ne_and_not_mem_of_not_mem_cons h
    rw [List.cons_append, bodiesOf, if_neg hb.symm, if_pos (by simp), ih hbs]

theorem bodiesOf_accOf {bodies : List Bytes} {tail : Bytes} (hbodies : ∀ b ∈ bodies, dollar ∉ b)
    (htail : dollar ∉ tail) : bodiesOf (accOf bodies tail) = bodies := by
  induction bodies with
  | nil => exact bodiesOf_of_no_dollar htail
  | cons body bodies ih =>
    obtain ⟨hbody, hrest⟩ := List.forall_mem_cons.mp hbodies
    rw [accOf_cons, bodiesOf_frame hbody, ih hrest]

/-- The accumulator after the stream `bodies`, `tail` has been fed: some of the stream's bodies queued, and
outside discard mode the stream's own fragment after them. -/
structure State.Queues (s : State) (bodies : List Bytes) (tail : Bytes) : Prop where
  acc : ∃ queued, queued.Sublist bodies ∧ s.acc = accOf queued (if s.disc then [] else tail)
  bodies : ∀ b ∈ bodies, dollar ∉ b
  tail : dollar ∉ tail

/-- A `'$'` ends the stream's fragment; it is queued, or lost with an overflow or in discard mode. -/
theorem State.Queues.feed_dollar {s : State} {bodies : List Bytes} {tail : Bytes} (h : s.Queues bodies tail) :
    (serFeed dollar s).respond.Queues (bodies ++ [tail]) [] := by
  obtain ⟨⟨queued, hsub, hacc⟩, hbodies, htail⟩ := h
  refine ⟨?_, by simpa [or_imp, forall_and] using ⟨hbodies, htail⟩, by simp⟩
  have hlost : queued.Sublist (bodies ++ [tail]) := hsub.trans (List.sublist_append_left ..)
  cases hdisc : s.disc with
  | true =>
    refine ⟨queued, hlost, ?_⟩
    simpa [serFeed_of_disc hdisc, hdisc] using hacc
  | false =>
    replace hacc : s.acc = accOf queued tail := by simpa [hdisc] using hacc
    cases hroom : Cap.room s.cfg.accCap s.acc.length with
    | true =>
      refine ⟨queued ++ [tail], hsub.append_right [tail], ?_⟩
      simp [serFeed_of_room hdisc hroom, hacc, accOf_append_dollar]
    | false =>
      refine ⟨queued, hlost, ?_⟩
      simp [serFeed_of_full_accOf hdisc hroom hacc htail]

/-- Any other byte extends the stream's fragment. -/
theorem State.Queues.feed_byte {s : State} {bodies : List Bytes} {tail : Bytes} (h : s.Queues bodies tail)
    {b : Byte} (hb : b ≠ dollar) : (serFeed b s).respond.Queues bodies (tail ++ [b]) := by
  obtain ⟨⟨queued, hsub, hacc⟩, hbodies, htail⟩ := h
  refine ⟨⟨queued, hsub, ?_⟩, hbodies, by simp [htail, hb.symm]⟩
  cases hdisc : s.disc with
  | true => simpa [serFeed_of_disc hdisc, hdisc, hb] using hacc
  | false =>
    replace hacc : s.acc = accOf queued tail := by simpa [hdisc] using hacc
    cases hroom : Cap.room s.cfg.accCap s.acc.length with
    | true => simp [serFeed_of_room hdisc hroom, hdisc, hacc, accOf_append_byte]
    | false => simp [serFeed_of_full_accOf hdisc hroom hacc htail, hb]

/-- Feeding a stream from an empty accumulator queues some of its bodies. -/
theorem exists_queues_runAll {s : State} (hacc : s.acc = []) (hdisc : s.disc = false) (stream : Bytes) :
    ∃ bodies tail, stream = accOf bodies tail ∧ (runAll (stream.map .serFeed) s).Queues bodies tail := by
  induction stream using List.reverseRecOn with
  | nil => exact ⟨[], [], rfl, ⟨[], List.Sublist.refl [], by simp [hacc, hdisc, accOf]⟩, by simp, by simp⟩
  | append_singleton front b ih =>
    obtain ⟨bodies, tail, rfl, hq⟩ := ih
    rw [List.map_append, runAll_append]
    by_cases hb : b = dollar
    · subst hb
      exact ⟨bodies ++ [tail], [], accOf_append_dollar .., hq.feed_dollar⟩
    · exact ⟨bodies, tail ++ [b], accOf_append_byte .., hq.feed_byte hb⟩

/-- Settles O37: the bodies of an accumulator that queues some of a stream's bodies are those. -/
theorem overflowNeverMakesAFrame : Obligations.OverflowNeverMakesAFrame := by
  intro stream s hacc hdisc
  refine ⟨_, execAll_eq _ s, ?_⟩
  obtain ⟨bodies, tail, rfl, ⟨queued, hsub, hq⟩, hbodies, htail⟩ := exists_queues_runAll hacc hdisc stream
  have hfrag : dollar ∉ (if (runAll ((accOf bodies tail).map .serFeed) s).disc then [] else tail) := by
    split <;> simp [htail]
  rw [hq, bodiesOf_accOf (fun b hb => hbodies b (hsub.subset hb)) hfrag, bodiesOf_accOf hbodies htail]
  exact hsub

end Sys2Proof.Machine
end

section
/-!
Independence of the families (40_serial_framer.md R98, 41_ai_framer.md R118, 42_pixel_codec.md R144). `withSerial`,
`withAi` and `withPixel` put a family's own fields and the parameters over any other state, and every command of
the family commutes with that. Over the same state this says what the command leaves alone, over another one what
it does not depend on.
-/
namespace Sys2Proof.Machine

open Claims

/-- The effect with its state seen through `f`; the response stays. -/
def Effect.map (f : State → State) (e : Effect) : Effect := { e with state := f e.state }

/-! ### The serial framer (R98) -/

/-- `u` with the parameters and the serial framer of `s`. -/
def State.withSerial (u s : State) : State :=
  { u with cfg := s.cfg, acc := s.acc, disc := s.disc, telemValue := s.telemValue, telemValid := s.telemValid }

@[simp] theorem State.withSerial_cfg (u s : State) : (u.withSerial s).cfg = s.cfg := rfl

theorem State.withSerial_eq {s s' : State} (hcfg : s'.cfg = s.cfg) (hview : serialView s' = serialView s) :
    s'.withSerial s = s' := by
  simp only [serialView, Prod.mk.injEq] at hview
  obtain ⟨hacc, hdisc, hvalue, hvalid⟩ := hview
  rw [State.withSerial, ← hcfg, ← hacc, ← hdisc, ← hvalue, ← hvalid]

theorem serFeed_withSerial (b : Byte) (u s : State) :
    serFeed b (u.withSerial s) = (serFeed b s).map u.withSerial := by
  cases hdisc : s.disc with
  | true =>
    rw [serFeed_of_disc hdisc, serFeed_of_disc (s := u.withSerial s) hdisc]
    rfl
  | false =>
    cases hroom : Cap.room s.cfg.accCap s.acc.length with
    | true =>
      rw [serFeed_of_room hdisc hroom, serFeed_of_room (s := u.withSerial s) hdisc hroom]
      rfl
    | false =>
      obtain ⟨bodies, tail, hacc, -, htail⟩ := exists_accOf s.acc
      rw [serFeed_of_full_accOf hdisc hroom hacc htail,
        serFeed_of_full_accOf (s := u.withSerial s) hdisc hroom hacc htail]
      rfl

theorem takeFrame_withSerial (body : Bytes) (u s : State) :
    takeFrame body (u.withSerial s) = (takeFrame body s).map u.withSerial := by
  rw [takeFrame, takeFrame, State.withSerial_cfg]
  cases decodeBody s.cfg.hexScope body <;> rfl

theorem serExtract_withSerial (u s : State) :
    serExtract (u.withSerial s) = (serExtract s).map u.withSerial := by
  by_cases hd : dollar ∈ s.acc
  · obtain ⟨body, rest, hacc, hbody⟩ := exists_first_frame hd
    rw [serExtract_of_frame hacc hbody, serExtract_of_frame (s := u.withSerial s) hacc hbody,
      ← takeFrame_withSerial]
    rfl
  · rw [serExtract_none hd, serExtract_none (s := u.withSerial s) hd]
    rfl

theorem serDrain_withSerial (u s : State) : serDrain (u.withSerial s) = (serDrain s).map u.withSerial := by
  obtain ⟨bodies, tail, hacc, hbodies, htail⟩ := exists_accOf s.acc
  rw [serDrain, serDrain, drained_accOf hacc hbodies htail,
    drained_accOf (s := u.withSerial s) hacc hbodies htail]
  rfl

theorem effectOf_withSerial {i : Instr} (hi : isSerial i) (u s : State) :
    effectOf i (u.withSerial s) = (effectOf i s).map u.withSerial := by
  rcases hi with rfl | rfl | ⟨b, rfl⟩
  · exact serExtract_withSerial u s
  · exact serDrain_withSerial u s
  · exact serFeed_withSerial b u s

theorem exec_withSerial {i : Instr} (hi : isSerial i) (u s : State) :
    exec i (u.withSerial s) = .next ((effectOf i s).map u.withSerial).respond := by
  rw [exec_eq, effectOf_withSerial hi]

/-- Settles O23: the command over `s` itself, then over the other state. -/
theorem serialCommandsAreIndependent : Obligations.SerialCommandsAreIndependent := by
  intro i s hi
  refine ⟨_, exec_withSerial hi s s, rfl, rfl, rfl, rfl, rfl, fun s' hcfg hview => ?_⟩
  have hexec := exec_withSerial hi s' s
  rw [State.withSerial_eq hcfg hview] at hexec
  exact ⟨_, hexec, rfl, (effectOf i s).response, rfl, rfl⟩

/-! ### The AI framer (R118) -/

/-- `u` with the parameters, the slot and the transport of `s`. -/
def State.withAi (u s : State) : State :=
  { u with cfg := s.cfg, slot := s.slot, i2cIn := s.i2cIn, freshDraws := s.freshDraws, i2cReads := s.i2cReads }

@[simp] theorem State.withAi_cfg (u s : State) : (u.withAi s).cfg = s.cfg := rfl
@[simp] theorem State.withAi_slot (u s : State) : (u.withAi s).slot = s.slot := rfl
@[simp] theorem State.withAi_i2cData (u s : State) (n : Nat) : (u.withAi s).i2cData n = s.i2cData n := rfl
@[simp] theorem State.withAi_afterI2C (u s : State) (n : Nat) :
    (u.withAi s).afterI2C n = u.withAi (s.afterI2C n) := rfl

theorem State.withAi_eq {s s' : State} (hcfg : s'.cfg = s.cfg) (hslot : s'.slot = s.slot)
    (hview : transportView s' = transportView s) : s'.withAi s = s' := by
  simp only [transportView, Prod.mk.injEq] at hview
  obtain ⟨hin, hdraws, hreads⟩ := hview
  rw [State.withAi, ← hcfg, ← hslot, ← hin, ← hdraws, ← hreads]

theorem decodeStatus_withAi (i : Byte) (u s : State) :
    decodeStatus i (u.withAi s) = (decodeStatus i s).map u.withAi := by
  rcases Nat.lt_or_ge i.toNat s.cfg.nStatus with h | h
  · rw [decodeStatus_of_lt h, decodeStatus_of_lt (s := u.withAi s) h]
    rfl
  · rw [decodeStatus_of_ge h, decodeStatus_of_ge (s := u.withAi s) h]
    rfl

theorem decodeJson_withAi (payload : Bytes) (len : Nat) (u s : State) :
    decodeJson payload len (u.withAi s) = (decodeJson payload len s).map u.withAi := by
  cases hcanon : Config.jsonCanon payload with
  | none =>
    rw [decodeJson_of_none hcanon, decodeJson_of_none hcanon]
    rfl
  | some t =>
    by_cases hcap : Cap.allows s.cfg.slotCap t.length = true
    · rw [decodeJson_of_allowed hcanon hcap, decodeJson_of_allowed hcanon (s := u.withAi s) hcap]
      rfl
    · rw [decodeJson_of_oversize hcanon hcap, decodeJson_of_oversize hcanon (s := u.withAi s) hcap]
      rfl

theorem decodeFrame_withAi (payload : Bytes) (ck : Byte) (len : Nat) (u s : State) :
    decodeFrame payload ck len (u.withAi s) = (decodeFrame payload ck len s).map u.withAi := by
  simp only [decodeFrame, decodeStatus_withAi, decodeJson_withAi]
  split_ifs <;> rfl

theorem readBody_withAi (len : Nat) (u s : State) :
    readBody len (u.withAi s) = (readBody len s).map u.withAi := by
  simp only [readBody, State.withAi_i2cData, State.withAi_afterI2C, decodeFrame_withAi]
  split_ifs <;> rfl

theorem aiPoll_withAi (u s : State) : aiPoll (u.withAi s) = (aiPoll s).map u.withAi := by
  simp only [aiPoll, State.withAi_cfg, State.withAi_i2cData, State.withAi_afterI2C, readBody_withAi]
  split_ifs <;> rfl

theorem aiTake_withAi (u s : State) : aiTake (u.withAi s) = (aiTake s).map u.withAi := by
  simp only [aiTake, State.withAi_slot]
  cases s.slot <;> rfl

theorem effectOf_withAi {i : Instr} (hi : isAi i) (u s : State) :
    effectOf i (u.withAi s) = (effectOf i s).map u.withAi := by
  rcases hi with rfl | rfl
  · exact aiPoll_withAi u s
  · exact aiTake_withAi u s

theorem exec_withAi {i : Instr} (hi : isAi i) (u s : State) :
    exec i (u.withAi s) = .next ((effectOf i s).map u.withAi).respond := by
  rw [exec_eq, effectOf_withAi hi]

/-- Settles O24: the command over `s` itself, then over the other state. -/
theorem aiCommandsAreIndependent : Obligations.AiCommandsAreIndependent := by
  intro i s hi
  refine ⟨_, exec_withAi hi s s, rfl, rfl, rfl, rfl, fun s' hcfg hslot hview => ?_⟩
  have hexec := exec_withAi hi s' s
  rw [State.withAi_eq hcfg hslot hview] at hexec
  exact ⟨_, hexec, rfl, rfl, (effectOf i s).response, rfl, rfl⟩

/-! ### The pixel codec (R144) -/

/-- `u` with the parameters, the codec and the LED port of `s`. -/
def State.withPixel (u s : State) : State :=
  { u with cfg := s.cfg, brightness := s.brightness, buf := s.buf, ledFrames := s.ledFrames }

@[simp] theorem State.withPixel_cfg (u s : State) : (u.withPixel s).cfg = s.cfg := rfl
@[simp] theorem State.withPixel_brightness (u s : State) : (u.withPixel s).brightness = s.brightness := rfl
@[simp] theorem State.withPixel_memWrite (u s : State) (o : Nat) (v : Byte) :
    (u.withPixel s).memWrite o v = u.withPixel (s.memWrite o v) := rfl
@[simp] theorem State.withPixel_emitLED (u s : State) : (u.withPixel s).emitLED = u.withPixel s.emitLED := rfl

theorem State.withPixel_eq {s s' : State} (hcfg : s'.cfg = s.cfg) (hview : pixelView s' = pixelView s)
    (hled : s'.ledFrames = s.ledFrames) : s'.withPixel s = s' := by
  simp only [pixelView, Prod.mk.injEq] at hview
  obtain ⟨hbright, hbuf⟩ := hview
  rw [State.withPixel, ← hcfg, ← hbright, ← hbuf, ← hled]

theorem place_withPixel (i : Nat) (r g b : Byte) (u s : State) :
    place i r g b (u.withPixel s) = u.withPixel (place i r g b s) := by
  simp only [place, State.withPixel_cfg, State.withPixel_memWrite]
  cases s.cfg.mode <;> rfl

theorem placeFirst_withPixel (n : Nat) (r g b : Byte) (u s : State) :
    placeFirst n r g b (u.withPixel s) = u.withPixel (placeFirst n r g b s) := by
  induction n with
  | zero => rfl
  | succ n ih => rw [placeFirst, placeFirst, ih, place_withPixel]

theorem zeroFrom_withPixel (lo n : Nat) (u s : State) :
    zeroFrom lo n (u.withPixel s) = u.withPixel (zeroFrom lo n s) := by
  induction n with
  | zero => rfl
  | succ n ih => rw [zeroFrom, zeroFrom, ih, State.withPixel_memWrite]

theorem pixWrite_withPixel (idx : BitVec 16) (r g b : Byte) (u s : State) :
    pixWrite idx r g b (u.withPixel s) = (pixWrite idx r g b s).map u.withPixel := by
  simp only [pixWrite, State.withPixel_cfg, State.withPixel_brightness, place_withPixel, placeFirst_withPixel]
  cases target s.cfg idx <;> rfl

theorem pixClear_withPixel (u s : State) : pixClear (u.withPixel s) = (pixClear s).map u.withPixel := by
  simp only [pixClear, zeroActive, State.withPixel_cfg, zeroFrom_withPixel, State.withPixel_emitLED]
  rfl

theorem pixRead_withPixel (off : BitVec 32) (u s : State) :
    pixRead off (u.withPixel s) = (pixRead off s).map u.withPixel := by
  rcases Nat.lt_or_ge off.toNat s.cfg.bufSize with h | h
  · rw [pixRead_of_lt h, pixRead_of_lt (s := u.withPixel s) h]
    rfl
  · rw [pixRead_of_ge h, pixRead_of_ge (s := u.withPixel s) h]
    rfl

theorem effectOf_withPixel {i : Instr} (hi : isPixel i) (u s : State) :
    effectOf i (u.withPixel s) = (effectOf i s).map u.withPixel := by
  rcases hi with rfl | rfl | ⟨level, rfl⟩ | ⟨off, rfl⟩ | ⟨idx, col, rfl⟩ | ⟨idx, r, g, b, rfl⟩
  · exact pixClear_withPixel u s
  · rfl
  · rfl
  · exact pixRead_withPixel off u s
  · exact pixWrite_withPixel idx _ _ _ u s
  · exact pixWrite_withPixel idx r g b u s

theorem exec_withPixel {i : Instr} (hi : isPixel i) (u s : State) :
    exec i (u.withPixel s) = .next ((effectOf i s).map u.withPixel).respond := by
  rw [exec_eq, effectOf_withPixel hi]

/-- Settles O25: the command over `s` itself, then over the other state. -/
theorem pixelCommandsAreIndependent : Obligations.PixelCommandsAreIndependent := by
  intro i s hi
  refine ⟨_, exec_withPixel hi s s, rfl, rfl, rfl, rfl, fun s' hcfg hview hled => ?_⟩
  have hexec := exec_withPixel hi s' s
  rw [State.withPixel_eq hcfg hview hled] at hexec
  exact ⟨_, hexec, rfl, rfl, (effectOf i s).response, rfl, rfl⟩

/-! ### The families together (30_encoding.md R69) -/

/-- The control commands (30_encoding.md R69). -/
def isControl (i : Instr) : Prop := i = .nop ∨ ∃ reg, i = .regRead reg

theorem family_cases (i : Instr) : isControl i ∨ isSerial i ∨ isAi i ∨ isPixel i := by
  cases i <;> simp [isControl, isSerial, isAi, isPixel]

/-- A control command's rule changes nothing (43_control.md R151, R152). -/
theorem effectOf_state_of_isControl {i : Instr} (hi : isControl i) (s : State) : (effectOf i s).state = s := by
  rcases hi with rfl | ⟨reg, rfl⟩
  · rfl
  · exact regRead_state reg s

/-- A serial command's rule changes the serial framer alone. -/
theorem effectOf_state_of_isSerial {i : Instr} (hi : isSerial i) (s : State) :
    (effectOf i s).state = s.withSerial (effectOf i s).state :=
  congrArg Effect.state (effectOf_withSerial hi s s)

/-- An AI command's rule changes the slot and the transport alone. -/
theorem effectOf_state_of_isAi {i : Instr} (hi : isAi i) (s : State) :
    (effectOf i s).state = s.withAi (effectOf i s).state :=
  congrArg Effect.state (effectOf_withAi hi s s)

/-- A codec command's rule changes the codec and the LED port alone. -/
theorem effectOf_state_of_isPixel {i : Instr} (hi : isPixel i) (s : State) :
    (effectOf i s).state = s.withPixel (effectOf i s).state :=
  congrArg Effect.state (effectOf_withPixel hi s s)

end Sys2Proof.Machine
end

section
/-!
The step and the skeleton of a command (30_encoding.md R66, R67; 20_memory.md R51, R56). Every command is its rule
and then the skeleton's end (`exec_eq`), so these facts are facts about the effects of the rules.
-/
namespace Sys2Proof.Machine

open Claims

/-! ### One step -/

theorem execWord_of_decode {w : Word} {i : Instr} (h : decode w = .ok i) (s : State) : execWord w s = exec i s := by
  rw [execWord, h]

theorem step_of_decode {s : State} {w : Word} {rest : List HostInput} {i : Instr}
    (hin : s.inbox = .command w :: rest) (h : decode w = .ok i) : step s = exec i { s with inbox := rest } := by
  rw [step_of_command hin, execWord_of_decode h]

theorem step_of_reset {s : State} {rest : List HostInput} (h : s.inbox = .reset :: rest) :
    step s = .next ({ s with inbox := rest } : State).resetInput := by
  simp only [step, nextInput, h, execReset]

theorem step_of_nil {s : State} (h : s.inbox = []) : step s = .next s := by
  simp only [step, nextInput, h, idle]

/-- The table's number of a command's word is the word. -/
theorem tableWord_encode (i : Instr) : tableWord 64 (encode i).toNat = encode i := by
  rw [tableWord, Nat.mod_eq_of_lt (encode i).isLt, BitVec.ofNat_toNat, BitVec.setWidth_eq]

/-- Settles O7: the word placed by `withFetchWord` heads the inbox. -/
theorem stepRunsTheDecodedCommand : Obligations.StepRunsTheDecodedCommand := by
  refine ⟨fun s w rest i hin hd => step_of_decode hin hd, fun s i => ⟨?_, decodeTableWord_encode i⟩⟩
  have hin : (s.withFetchWord 64 (encode i).toNat).inbox = .command (encode i) :: s.inbox := by
    rw [State.withFetchWord, State.issue_inbox, tableWord_encode]
  rw [step_of_decode hin (decode_encode i)]
  rfl

/-- Settles O9: `State.resetInput` writes every block field's reset value and no other field. -/
theorem resetInputRestoresResetState : Obligations.ResetInputRestoresResetState :=
  fun _ _ hin => step_of_reset hin

/-- Settles O10, by the step's rule for an empty inbox. -/
theorem idleStepHoldsState : Obligations.IdleStepHoldsState := fun _ hin => step_of_nil hin

/-- Settles O11: no input, a reset, an ILLEGAL word or a command, and each has its next state. -/
theorem everyStepCompletes : Obligations.EveryStepCompletes := by
  refine ⟨fun s => ?_, fun i s => ⟨_, exec_eq i s⟩⟩
  cases hin : s.inbox with
  | nil => exact ⟨_, step_of_nil hin⟩
  | cons x rest =>
    cases x with
    | reset => exact ⟨_, step_of_reset hin⟩
    | command w =>
      cases hd : decode w with
      | ok i => exact ⟨_, (step_of_decode hin hd).trans (exec_eq i _)⟩
      | error e => exact ⟨_, (step_of_command hin).trans (execWord_of_illegal hd _)⟩

/-- Settles O16: the skeleton writes no parameter, no rule does (`effectOf_frame`), and a reset keeps them. -/
theorem noStepChangesParameters : Obligations.NoStepChangesParameters := by
  have heffect (i : Instr) (s : State) : (effectOf i s).respond.cfg = s.cfg := (effectOf_frame i s).1
  refine ⟨fun i s t h => by rw [exec_next h, heffect], fun s t h => ?_⟩
  rcases step_cases h with ⟨-, rfl⟩ | ⟨rest, -, rfl⟩ | ⟨w, rest, e, -, -, rfl⟩ | ⟨w, rest, i, -, -, rfl⟩
  · rfl
  · rfl
  · rfl
  · rw [heffect]

/-! ### Outcome, response and text (R22, R66, R157) -/

/-- The outcome codes in the order of R157. -/
def allCodes : List Code :=
  [.ok, .illegal, .serAccepted, .serOverflow, .serResyncDrop, .serNoFrame, .serFrameOk, .serBadTag,
    .serBadLength, .serBadHex, .aiOkStatus, .aiOkJson, .aiHdrShort, .aiBadSync, .aiBadLength, .aiBodyShort,
    .aiBadChecksum, .aiBadStatusIndex, .aiBadJson, .pixWroteOne, .pixWroteAll, .pixIndexIgnored, .pixReadRange]

theorem mem_allCodes (c : Code) : c ∈ allCodes := by
  cases c <;> decide

/-- Settles O14: the numbers are the table's, and the table has no number twice. -/
theorem outcomeCodeNumbers : Obligations.OutcomeCodeNumbers := by
  have hnodup : (allCodes.map Code.byte).Nodup := by decide
  exact ⟨fun c d => List.inj_on_of_nodup_map hnodup (mem_allCodes c) (mem_allCodes d), by decide⟩

theorem serExtract_text (s : State) : (serExtract s).response.text = [] := by
  by_cases hd : dollar ∈ s.acc
  · obtain ⟨body, rest, hacc, hbody⟩ := exists_first_frame hd
    rw [serExtract_of_frame hacc hbody, takeFrame]
    cases decodeBody ({ s with acc := rest } : State).cfg.hexScope body <;> rfl
  · rw [serExtract_none hd, complete_text]

theorem decodeFrame_text (payload : Bytes) (ck : Byte) (len : Nat) (s : State) :
    (decodeFrame payload ck len s).response.text = [] := by
  unfold decodeFrame decodeStatus decodeJson
  split_ifs
  · rfl
  · rfl
  · rfl
  · cases Config.jsonCanon payload with
    | none => rfl
    | some t => dsimp only; split_ifs <;> rfl

theorem aiPoll_text (s : State) : (aiPoll s).response.text = [] := by
  unfold aiPoll readBody
  split_ifs
  · rfl
  · rfl
  · rfl
  · rfl
  · exact decodeFrame_text ..

theorem pixWrite_text (idx : BitVec 16) (r g b : Byte) (s : State) :
    (pixWrite idx r g b s).response.text = [] := by
  rcases pixWrite_cases idx r g b s with ⟨-, h⟩ | ⟨-, h⟩ | ⟨-, h⟩ <;> rw [h] <;> rfl

/-- Only AI_TAKE answers with text (R66). -/
theorem effectOf_text {i : Instr} (hi : i ≠ .aiTake) (s : State) : (effectOf i s).response.text = [] := by
  cases i with
  | nop => rfl
  | regRead reg => rw [effectOf, regRead]; cases regValue s reg <;> rfl
  | serFeed b => rw [effectOf, serFeed]; split_ifs <;> rfl
  | serExtract => exact serExtract_text s
  | serDrain => rfl
  | aiPoll => exact aiPoll_text s
  | aiTake => exact absurd rfl hi
  | pixSet idx col => exact pixWrite_text ..
  | pixSetRgb idx r g b => exact pixWrite_text ..
  | pixClear => rfl
  | pixBright level => rfl
  | pixShow => rfl
  | pixRead off => rw [effectOf, pixRead]; split_ifs <;> rfl

/-- The skeleton appends the rule's response to the responses before the command. -/
theorem effectOf_respond_responses (i : Instr) (s : State) :
    (effectOf i s).respond.responses = s.responses ++ [(effectOf i s).response] := by
  obtain ⟨-, -, hresponses⟩ := effectOf_frame i s
  rw [Effect.respond_responses, hresponses]

/-- Settles O13: the skeleton appends the rule's response, which has text for AI_TAKE alone (`effectOf_text`). -/
theorem everyCommandRecordsItsOutcome : Obligations.EveryCommandRecordsItsOutcome :=
  fun i s => ⟨(effectOf i s).respond, (effectOf i s).response, exec_eq i s, effectOf_respond_responses i s, rfl,
    fun hi => effectOf_text hi s⟩

/-! ### Commands in issue order (R51, R52) -/

/-- A command that commutes with putting its own fields over another state commutes with a new inbox, when the
inbox is none of those fields. -/
theorem effectOf_setInbox_of_put {i : Instr} {put : State → State → State}
    (heffect : ∀ u s, effectOf i (put u s) = (effectOf i s).map (put u)) (hself : ∀ s, put s s = s)
    (hinbox : ∀ u s rest, put { u with inbox := rest } s = { put u s with inbox := rest })
    (s : State) (rest : List HostInput) :
    effectOf i { s with inbox := rest } = (effectOf i s).map fun t => { t with inbox := rest } := by
  calc effectOf i { s with inbox := rest }
      = effectOf i (put { s with inbox := rest } s) := by rw [hinbox, hself]
    _ = (effectOf i s).map (put { s with inbox := rest }) := heffect _ s
    _ = ((effectOf i s).map (put s)).map fun t => { t with inbox := rest } := by
        rw [Effect.map, hinbox]
        rfl
    _ = (effectOf i s).map fun t => { t with inbox := rest } := by rw [← heffect, hself]

/-- No command reads or writes what the host issues after it. -/
theorem effectOf_setInbox (i : Instr) (s : State) (rest : List HostInput) :
    effectOf i { s with inbox := rest } = (effectOf i s).map fun t => { t with inbox := rest } := by
  rcases family_cases i with (rfl | ⟨reg, rfl⟩) | hi | hi | hi
  · rfl
  · have hvalue : regValue { s with inbox := rest } reg = regValue s reg := rfl
    rw [effectOf, effectOf, regRead, regRead, hvalue]
    cases regValue s reg <;> rfl
  · exact effectOf_setInbox_of_put (effectOf_withSerial hi) (fun _ => rfl) (fun _ _ _ => rfl) s rest
  · exact effectOf_setInbox_of_put (effectOf_withAi hi) (fun _ => rfl) (fun _ _ _ => rfl) s rest
  · exact effectOf_setInbox_of_put (effectOf_withPixel hi) (fun _ => rfl) (fun _ _ _ => rfl) s rest

theorem run_succ_of_step (M : Host.Core) {s t : M.State} (h : M.step s = .next t) (k : Nat) :
    M.run (k + 1) s = M.run k t := by
  rw [Host.Core.run, h]

/-- Settles O12, by induction on the commands: a step runs the first one with the others still in the inbox, which
it neither reads nor writes. -/
theorem commandsRunInIssueOrder : Obligations.CommandsRunInIssueOrder := by
  intro is
  induction is with
  | nil =>
    intro s hin
    have hs : ({ s with inbox := [] } : State) = s := by rw [← List.map_nil, ← hin]
    rw [hs]
    rfl
  | cons i is ih =>
    intro s hin
    have hstep := (step_of_decode hin (decode_encode i)).trans (exec_eq i _)
    obtain ⟨-, hrest, -⟩ := effectOf_frame i { s with inbox := is.map fun i => .command (encode i) }
    refine (run_succ_of_step Sys2Proof.core hstep is.length).trans ((ih (effectOf i _).respond hrest).trans ?_)
    rw [execAll, exec_eq, effectOf_setInbox, effectOf_setInbox i s []]
    rfl

end Sys2Proof.Machine
end

section
/-!
The registers' fields (10_state.md R25 to R30), and reads that repeat their value (20_memory.md R56).
-/
namespace Sys2Proof.Machine

open Claims

/-! ### Registers 0x00 to 0x05 -/

/-- A register is the number its fields spell. -/
theorem eq_ofNat_of_toNat_eq {v : BitVec 32} {n : Nat} (h : v.toNat = n) : v = BitVec.ofNat 32 n := by
  rw [← h, BitVec.ofNat_toNat, BitVec.setWidth_eq]

theorem flagBit_toNat (b : Bool) : (flagBit b).toNat = if b then 1 else 0 := by
  cases b <;> rfl

theorem regBrightness_eq (s : State) : regBrightness s = BitVec.ofNat 32 s.brightness.toNat := by
  apply eq_ofNat_of_toNat_eq
  rw [regBrightness, toNat_append_eq]
  simp

theorem regTelem_eq (s : State) :
    regTelem s = BitVec.ofNat 32 (s.telemValue.toNat + (if s.telemValid then 2 ^ 16 else 0)) := by
  apply eq_ofNat_of_toNat_eq
  rw [regTelem, toNat_append_eq, toNat_append_eq, flagBit_toNat]
  cases s.telemValid <;> simp [Nat.add_comm]

theorem regSerFlags_eq (s : State) :
    regSerFlags s = BitVec.ofNat 32 ((if s.disc then 1 else 0) + (if dollar ∈ s.acc then 2 else 0)) := by
  apply eq_ofNat_of_toNat_eq
  rw [regSerFlags, toNat_append_eq, toNat_append_eq, flagBit_toNat, flagBit_toNat]
  by_cases hd : dollar ∈ s.acc <;> simp [framePending, hd, Nat.add_comm]

/-- The number SLOT_INFO spells, slot form by slot form (R29). -/
def slotInfo : Slot → Nat
  | .empty => 0
  | .status i => 1 + 2 ^ 8 * i.toNat
  | .json t => 2 + 2 ^ 16 * min t.length 65535

theorem regSlotInfo_eq (s : State) : regSlotInfo s = BitVec.ofNat 32 (slotInfo s.slot) := by
  apply eq_ofNat_of_toNat_eq
  rw [regSlotInfo, toNat_append_eq, toNat_append_eq, toNat_append_eq]
  cases s.slot with
  | empty => rfl
  | status i => simp [Slot.textLen, Slot.index, Slot.kind, slotInfo]; omega
  | json t => simp [Slot.textLen, Slot.index, Slot.kind, slotInfo]; omega

theorem regLastOutcome_eq (s : State) : regLastOutcome s = BitVec.ofNat 32 s.lastOutcome.byte.toNat := by
  apply eq_ofNat_of_toNat_eq
  rw [regLastOutcome, toNat_append_eq]
  simp

/-! ### Registers 0x06 to 0x0C -/

/-- A register that is no field of the block's state is a function of the parameters. -/
theorem regValue_eq_of_cfg {s t : State} (hcfg : t.cfg = s.cfg) {reg : BitVec 8} (hlo : 0x06 ≤ reg.toNat)
    (hhi : reg.toNat ≤ 0x0C) : regValue t reg = regValue s reg := by
  unfold regValue
  split
  case h_1 | h_2 | h_3 | h_4 | h_5 | h_6 => omega
  case h_14 => rfl
  all_goals simp only [regCfgGeom, regCfgBuf, regCfgSync, regCfgAi, regCfgAccCap, regCfgMisc, hcfg]

/-- Settles O28, register by register; those from 0x06 on by `regValue_eq_of_cfg`. -/
theorem registerFields : Obligations.RegisterFields := by
  refine fun s => ⟨congrArg some (regBrightness_eq s), congrArg some (regTelem_eq s), rfl,
    congrArg some (regSerFlags_eq s), ?_, congrArg some (regLastOutcome_eq s),
    fun reg hlo hhi => regValue_eq_of_cfg (t := s) (s := State.resetWith s.cfg) rfl hlo hhi⟩
  refine (congrArg some (regSlotInfo_eq s)).trans ?_
  cases s.slot <;> rfl

/-! ### Reads that repeat their value (R56) -/

/-- The only register a command's end can change is LAST_OUTCOME (R22). -/
theorem regValue_answered {reg : BitVec 8} (hreg : reg ≠ 0x05#8) (s : State) (o : Code) (v : Nat) (t : Bytes) :
    regValue (answered s o v t) reg = regValue s reg := by
  have hne : reg.toNat ≠ 5 := fun h => hreg (BitVec.eq_of_toNat_eq h)
  unfold regValue
  split
  case h_6 h => exact absurd h hne
  all_goals rfl

theorem Effect.respond_record (e : Effect) :
    e.respond.record = { e.state.record with lastOutcome := e.response.outcome } := rfl

/-- The command changes no block state, and run again it answers the same. -/
structure Repeats (i : Instr) (s : State) : Prop where
  record : ∀ t, (effectOf i t).state.record = t.record
  response : (effectOf i (effectOf i s).respond).response = (effectOf i s).response

theorem repeats_pixShow (s : State) : Repeats .pixShow s := ⟨fun _ => rfl, rfl⟩

/-- PIX_READ's answer depends on the buffer and the parameters alone. -/
theorem pixRead_response_congr {s t : State} (hcfg : t.cfg = s.cfg) (hbuf : t.buf = s.buf) (off : BitVec 32) :
    (pixRead off t).response = (pixRead off s).response := by
  rcases Nat.lt_or_ge off.toNat s.cfg.bufSize with h | h
  · rw [pixRead_of_lt h, pixRead_of_lt (hcfg ▸ h), State.memRead, hbuf]
    rfl
  · rw [pixRead_of_ge h, pixRead_of_ge (hcfg ▸ h)]
    rfl

theorem repeats_pixRead (off : BitVec 32) (s : State) : Repeats (.pixRead off) s := by
  refine ⟨fun t => by rw [effectOf, pixRead_state], pixRead_response_congr ?_ ?_ off⟩
  · rw [Effect.respond_cfg, effectOf, pixRead_state]
  · rw [Effect.respond_buf, effectOf, pixRead_state]

theorem repeats_regRead {reg : BitVec 8} (hreg : reg ≠ 0x05#8) (s : State) : Repeats (.regRead reg) s := by
  refine ⟨fun t => by rw [effectOf, regRead_state], ?_⟩
  simp only [effectOf]
  cases hv : regValue s reg with
  | some v =>
    rw [regRead_of_some hv, complete_respond_eq_answered, regRead_of_some ((regValue_answered hreg ..).trans hv)]
    rfl
  | none =>
    rw [regRead_of_none hv, reject_respond_eq_answered, regRead_of_none ((regValue_answered hreg ..).trans hv)]
    rfl

/-- A command that repeats answers twice alike, and the second time changes no block state at all. -/
theorem Repeats.twice {i : Instr} {s : State} (h : Repeats i s) :
    ∃ t u r, exec i s = .next t ∧ exec i t = .next u ∧ t.responses = s.responses ++ [r] ∧
      u.responses = s.responses ++ [r, r] ∧ t.buf = s.buf ∧ u.record = t.record := by
  refine ⟨_, _, (effectOf i s).response, exec_eq i s, exec_eq i _, effectOf_respond_responses i s, ?_,
    congrArg Record.buf (h.record s), ?_⟩
  · rw [effectOf_respond_responses, effectOf_respond_responses, h.response, List.append_assoc]
    rfl
  · rw [Effect.respond_record, h.record, h.response]
    rfl

/-- REG_READ 0x05 answers the number of the last outcome (R30). -/
theorem regRead_lastOutcome (s : State) : regRead 0x05#8 s = complete s .ok s.lastOutcome.byte.toNat [] := by
  have hvalue : regValue s 0x05#8 = some (regLastOutcome s) := rfl
  rw [regRead_of_some hvalue, regLastOutcome, toNat_append_eq]
  simp

/-- Settles O29. A REG_READ 0x05 answers OK, so the next one reads that. -/
theorem readsRepeatTheirValue : Obligations.ReadsRepeatTheirValue := by
  intro s
  refine ⟨?_, ⟨_, _, s.bufBytes, exec_eq .pixShow s, exec_eq .pixShow _, rfl, ?_⟩,
    _, _, _, exec_eq (.regRead 0x05#8) s, exec_eq (.regRead 0x05#8) _, effectOf_respond_responses _ s, ?_, ?_⟩
  · rintro i (rfl | ⟨off, rfl⟩ | ⟨reg, rfl, hreg⟩)
    · exact (repeats_pixShow s).twice
    · exact (repeats_pixRead off s).twice
    · exact (repeats_regRead hreg s).twice
  · exact List.append_assoc s.ledFrames [s.bufBytes] [s.bufBytes]
  · rw [effectOf, regRead_lastOutcome, complete_value]
  · simp only [effectOf, regRead_lastOutcome]
    exact List.append_assoc s.responses _ _

end Sys2Proof.Machine
end

section
/-!
The pixel writes (42_pixel_codec.md R127 to R133) and the pixel buffer under every command (20_memory.md R41,
42_pixel_codec.md R139, R143): `effectOf_read` says once which bytes a command can change and how a white byte
ends.
-/
namespace Sys2Proof.Machine

open Claims

/-! ### Channels and colours (R126 to R128) -/

theorem scale_eq_dimmed (c br : Byte) : scale c br = dimmed c br := by
  unfold scale dimmed
  split_ifs
  · rw [Nat.shiftRight_eq_div_pow]
  · rw [BitVec.ofNat_toNat, BitVec.setWidth_eq]

theorem colorOf_eq_tableColour (c : Config) (col : Byte) : colorOf c col = tableColour c.colorTable col := by
  unfold colorOf tableColour
  induction c.colorTable with
  | nil => rfl
  | cons e table ih =>
    obtain ⟨code, c24⟩ := e
    rw [List.lookup_cons, List.find?_cons]
    cases col == code with
    | true => rfl
    | false => exact ih

theorem redOf_append (r g b : Byte) : redOf (r ++ g ++ b) = r :=
  extractLsb'_eq_of_getLsbD fun k hk => by simp only [BitVec.getLsbD_append]; grind

theorem greenOf_append (r g b : Byte) : greenOf (r ++ g ++ b) = g :=
  extractLsb'_eq_of_getLsbD fun k hk => by simp only [BitVec.getLsbD_append]; grind

theorem blueOf_append (r g b : Byte) : blueOf (r ++ g ++ b) = b :=
  extractLsb'_eq_of_getLsbD fun k hk => by simp only [BitVec.getLsbD_append]; grind

/-! ### PIX_SET and PIX_SET_RGB (R131 to R133) -/

theorem pixWrite_of_lt {idx : BitVec 16} {s : State} (h : idx.toNat < s.cfg.count.toNat) (r g b : Byte) :
    pixWrite idx r g b s =
      complete (place idx.toNat (dimmed r s.brightness) (dimmed g s.brightness) (dimmed b s.brightness) s)
        .pixWroteOne idx.toNat [] := by
  simp only [pixWrite, target, if_pos h, scale_eq_dimmed]

theorem pixWrite_of_eq {idx : BitVec 16} {s : State} (h : idx.toNat = s.cfg.count.toNat) (r g b : Byte) :
    pixWrite idx r g b s =
      complete
        (placeFirst s.cfg.count.toNat (dimmed r s.brightness) (dimmed g s.brightness) (dimmed b s.brightness) s)
        .pixWroteAll s.cfg.count.toNat [] := by
  simp only [pixWrite, target, if_neg (Nat.not_lt.mpr h.ge), if_pos h, scale_eq_dimmed]

theorem pixWrite_of_gt {idx : BitVec 16} {s : State} (h : s.cfg.count.toNat < idx.toNat) (r g b : Byte) :
    pixWrite idx r g b s = reject s .pixIndexIgnored idx.toNat := by
  simp only [pixWrite, target, if_neg (Nat.not_lt.mpr h.le), if_neg h.ne']

/-- The shared rule, by its three targets. -/
theorem writesPixels_pixWrite {s : State} (hwf : s.buf.wf) (idx : BitVec 16) (r g b : Byte) :
    WritesPixels s idx r g b (.next (pixWrite idx r g b s).respond) := by
  refine ⟨fun h => ⟨_, ?_, place_read hwf idx.toNat _ _ _⟩,
    fun h => ⟨_, ?_, placeFirst_read hwf s.cfg.count.toNat _ _ _⟩, fun h => ?_⟩
  · rw [pixWrite_of_lt h, complete_respond_eq_answered, place_eq]
  · rw [pixWrite_of_eq h, complete_respond_eq_answered, placeFirst_eq]
  · rw [pixWrite_of_gt h, reject_respond_eq_answered]

/-- Settles O44: the command is the shared rule. -/
theorem pixSetRgbWritesItsTarget : Obligations.PixSetRgbWritesItsTarget :=
  fun idx r g b _ hwf => ⟨rfl, writesPixels_pixWrite hwf idx r g b⟩

/-- Settles O45: the shared rule on the table's triple. -/
theorem pixSetWritesTheTableColour : Obligations.PixSetWritesTheTableColour := by
  intro idx col r g b s hwf hcolour
  refine ⟨rfl, ?_⟩
  rw [exec_eq, effectOf, pixSet, colorOf_eq_tableColour, hcolour, redOf_append, greenOf_append, blueOf_append]
  exact writesPixels_pixWrite hwf idx r g b

/-! ### The buffer under every command -/

/-- Pixel `i` of the active region lies in it (R130). -/
theorem activeOffset_of_pixel {c : Config} {i o : Nat} (hi : i < c.count.toNat)
    (ho : pixelBase c i ≤ o ∧ o < pixelBase c i + c.stride) : activeOffset c o := by
  have hlo : c.activeLo ≤ pixelBase c i := Nat.mul_le_mul_right _ (Nat.le_add_right ..)
  have hhi : pixelBase c (i + 1) ≤ c.activeHi := Nat.mul_le_mul_right _ (by omega)
  have hnext : pixelBase c (i + 1) = pixelBase c i + c.stride := by
    simp only [pixelBase]
    ring
  exact ⟨hlo.trans ho.1, by omega⟩

/-- A pixel's fourth byte in RGBW mode, wherever the pixel stands (R143). -/
theorem channelBytes_white (r g b : Byte) : (channelBytes .rgbw r g b).getD 3 0#8 = 0#8 := rfl

/-- The byte at `o` after a rule: as before, or an active byte, which in RGBW mode is 0 where it is white. -/
def ReadAfter (s t : State) (o : Nat) : Prop :=
  t.memRead o = s.memRead o ∨
    activeOffset s.cfg o ∧ (s.cfg.mode = .rgbw → o % 4 = 3 → t.memRead o = 0#8)

theorem readAfter_of_buf {s t : State} (h : t.buf = s.buf) (o : Nat) : ReadAfter s t o :=
  .inl (congrArg (Memory.read · o) h)

theorem stride_of_rgbw {p : Params} (h : p.mode = .rgbw) : p.stride = 4 := by
  rw [Params.stride, h]

theorem readAfter_place {s : State} (hwf : s.buf.wf) {i : Nat} (hi : i < s.cfg.count.toNat) (r g b : Byte)
    (o : Nat) : ReadAfter s (place i r g b s) o := by
  unfold ReadAfter
  rw [place_read hwf]
  split_ifs with ho
  · refine .inr ⟨activeOffset_of_pixel hi ho, fun hmode hwhite => ?_⟩
    have hbase : pixelBase s.cfg i = (s.cfg.start.toNat + i) * 4 := by rw [pixelBase, stride_of_rgbw hmode]
    have hstride : s.cfg.stride = 4 := stride_of_rgbw hmode
    have hchannel : o - pixelBase s.cfg i = 3 := by omega
    rw [hmode, hchannel, channelBytes_white]
  · exact .inl rfl

theorem readAfter_placeFirst {s : State} (hwf : s.buf.wf) (r g b : Byte) (o : Nat) :
    ReadAfter s (placeFirst s.cfg.count.toNat r g b s) o := by
  unfold ReadAfter
  rw [placeFirst_read hwf]
  split_ifs with ho
  · refine .inr ⟨ho, fun hmode hwhite => ?_⟩
    rw [hmode, stride_of_rgbw hmode, hwhite, channelBytes_white]
  · exact .inl rfl

theorem readAfter_pixWrite {s : State} (hwf : s.buf.wf) (idx : BitVec 16) (r g b : Byte) (o : Nat) :
    ReadAfter s (pixWrite idx r g b s).state o := by
  rcases pixWrite_cases idx r g b s with ⟨hlt, h⟩ | ⟨-, h⟩ | ⟨-, h⟩ <;> rw [h]
  · exact readAfter_place hwf hlt _ _ _ o
  · exact readAfter_placeFirst hwf _ _ _ o
  · exact readAfter_of_buf rfl o

theorem readAfter_pixClear {s : State} (hwf : s.buf.wf) (o : Nat) : ReadAfter s (pixClear s).state o := by
  have hread : (pixClear s).state.memRead o = if activeOffset s.cfg o then 0#8 else s.memRead o :=
    zeroActive_read hwf o
  unfold ReadAfter
  rw [hread]
  split_ifs with ho
  · exact .inr ⟨ho, fun _ _ => rfl⟩
  · exact .inl rfl

/-- What every command's rule leaves at every offset. -/
theorem effectOf_read (i : Instr) {s : State} (hwf : s.buf.wf) (o : Nat) : ReadAfter s (effectOf i s).state o := by
  rcases family_cases i with hi | hi | hi | hi
  · rw [effectOf_state_of_isControl hi]
    exact readAfter_of_buf rfl o
  · rw [effectOf_state_of_isSerial hi]
    exact .inl rfl
  · rw [effectOf_state_of_isAi hi]
    exact .inl rfl
  · rcases hi with rfl | rfl | ⟨level, rfl⟩ | ⟨off, rfl⟩ | ⟨idx, col, rfl⟩ | ⟨idx, r, g, b, rfl⟩
    · exact readAfter_pixClear hwf o
    · exact readAfter_of_buf rfl o
    · exact readAfter_of_buf rfl o
    · exact readAfter_of_buf (congrArg State.buf (pixRead_state off s)) o
    · exact readAfter_pixWrite hwf idx _ _ _ o
    · exact readAfter_pixWrite hwf idx r g b o

/-- Every command's rule keeps the buffer's canonical form. -/
theorem effectOf_wf (i : Instr) {s : State} (hwf : s.buf.wf) : (effectOf i s).state.buf.wf := by
  have hwrite (idx : BitVec 16) (r g b : Byte) : (pixWrite idx r g b s).state.buf.wf := by
    rcases pixWrite_cases idx r g b s with ⟨-, h⟩ | ⟨-, h⟩ | ⟨-, h⟩ <;> rw [h]
    · exact place_wf hwf _ _ _ _
    · exact placeFirst_wf hwf _ _ _ _
    · exact hwf
  rcases family_cases i with hi | hi | hi | hi
  · rwa [effectOf_state_of_isControl hi]
  · rw [effectOf_state_of_isSerial hi]
    exact hwf
  · rw [effectOf_state_of_isAi hi]
    exact hwf
  · rcases hi with rfl | rfl | ⟨level, rfl⟩ | ⟨off, rfl⟩ | ⟨idx, col, rfl⟩ | ⟨idx, r, g, b, rfl⟩
    · exact zeroFrom_wf hwf _ _
    · exact hwf
    · exact hwf
    · rwa [effectOf, pixRead_state]
    · exact hwrite idx _ _ _
    · exact hwrite idx r g b

/-- Settles O20: the bytes a command can change are active ones (`effectOf_read`). -/
theorem noCommandWritesOutsideActiveRegion : Obligations.NoCommandWritesOutsideActiveRegion :=
  fun i s hwf => ⟨_, exec_eq i s, fun o ho => (effectOf_read i hwf o).resolve_right fun h => ho h.1⟩

end Sys2Proof.Machine
end

section
/-!
The invariants (10_state.md section 2, 20_memory.md R41, R58, R59, 42_pixel_codec.md R139, R143): each holds after
reset, every rule keeps it, and `step_keeps` carries it over a step.
-/
namespace Sys2Proof.Machine

open Claims

/-- What every rule and a reset keep, a step keeps, if the inbox and the skeleton's end do not matter to it. -/
theorem step_keeps {P : State → Prop} (hinbox : ∀ s rest, P s → P { s with inbox := rest })
    (hreset : ∀ s, P s → P s.resetInput) (hrespond : ∀ e : Effect, P e.state → P e.respond)
    (heffect : ∀ i s, P s → P (effectOf i s).state) {s t : State} (hs : P s) (h : step s = .next t) : P t := by
  rcases step_cases h with ⟨-, rfl⟩ | ⟨rest, -, rfl⟩ | ⟨w, rest, e, -, -, rfl⟩ | ⟨w, rest, i, -, -, rfl⟩
  · exact hs
  · exact hreset _ (hinbox s rest hs)
  · exact hrespond _ (hinbox s rest hs)
  · exact hrespond _ (heffect i _ (hinbox s rest hs))

/-! ### The state invariant (R15 to R21) -/

section Inv
variable {s t : State}

/-- The invariant is about these fields. -/
theorem State.Inv.congr (h : s.Inv) (hcfg : t.cfg = s.cfg) (hbuf : t.buf = s.buf) (hacc : t.acc = s.acc)
    (hdisc : t.disc = s.disc) (hvalue : t.telemValue = s.telemValue) (hvalid : t.telemValid = s.telemValid)
    (hslot : t.slot = s.slot) : t.Inv where
  bufWf := hbuf ▸ h.bufWf
  bufWithin := by rw [hbuf, hcfg]; exact h.bufWithin
  accCap := by rw [hacc, hcfg]; exact h.accCap
  discBounded := by rw [hdisc, hcfg]; exact h.discBounded
  telemImage := hvalue ▸ h.telemImage
  telemUnset := by rw [hvalue, hvalid]; exact h.telemUnset
  slotOk := by rw [hslot, hcfg]; exact h.slotOk

theorem State.Inv.setSlot (h : s.Inv) {x : Slot} (hx : slotAllowed s.cfg x) :
    ({ s with slot := x } : State).Inv :=
  ⟨h.bufWf, h.bufWithin, h.accCap, h.discBounded, h.telemImage, h.telemUnset, hx⟩

theorem State.Inv.setBuf (h : s.Inv) {m : Memory} (hwf : m.wf) (hwithin : m.within s.cfg.bufSize) :
    ({ s with buf := m } : State).Inv :=
  ⟨hwf, hwithin, h.accCap, h.discBounded, h.telemImage, h.telemUnset, h.slotOk⟩

theorem State.Inv.setAcc (h : s.Inv) {acc : Bytes} {disc : Bool}
    (hacc : Cap.allows s.cfg.accCap acc.length = true) (hdisc : s.cfg.accCap = .inf → disc = false) :
    ({ s with acc := acc, disc := disc } : State).Inv :=
  ⟨h.bufWf, h.bufWithin, hacc, hdisc, h.telemImage, h.telemUnset, h.slotOk⟩

/-- Accepted samples write both registers, with the value of the last. -/
theorem State.Inv.withSamples (h : s.Inv) (vs : List (BitVec 8)) : (s.withSamples vs).Inv := by
  cases hlast : vs.getLast? with
  | none =>
    have hs : s.withSamples vs = s := by simp only [State.withSamples, telemAfter, hlast]
    rwa [hs]
  | some v =>
    have hs : s.withSamples vs = acceptTelem v s := by
      simp only [State.withSamples, telemAfter, hlast, acceptTelem]
    rw [hs]
    exact ⟨h.bufWf, h.bufWithin, h.accCap, h.discBounded, ⟨v, rfl⟩, fun hunset => by simp at hunset, h.slotOk⟩

end Inv

/-! ### The serial framer keeps it -/

theorem Cap.allows_mono {cap : Cap} {m n : Nat} (h : Cap.allows cap n = true) (hmn : m ≤ n) :
    Cap.allows cap m = true := by
  cases cap with
  | inf => rfl
  | bounded k => exact decide_eq_true (hmn.trans (of_decide_eq_true h))

theorem Cap.allows_succ_of_room {cap : Cap} {n : Nat} (h : Cap.room cap n = true) :
    Cap.allows cap (n + 1) = true := by
  cases cap with
  | inf => rfl
  | bounded k => exact decide_eq_true (Nat.succ_le_of_lt (of_decide_eq_true h))

theorem inv_serFeed {s : State} (h : s.Inv) (b : Byte) : (serFeed b s).state.Inv := by
  cases hdisc : s.disc with
  | true =>
    rw [serFeed_of_disc hdisc]
    exact h.setAcc h.accCap fun hinf => absurd hdisc (by simp [h.discBounded hinf])
  | false =>
    cases hroom : Cap.room s.cfg.accCap s.acc.length with
    | true =>
      rw [serFeed_of_room hdisc hroom]
      refine h.setAcc ?_ h.discBounded
      rw [List.length_append]
      exact Cap.allows_succ_of_room hroom
    | false =>
      obtain ⟨bodies, tail, hacc, -, htail⟩ := exists_accOf s.acc
      rw [serFeed_of_full_accOf hdisc hroom hacc htail]
      refine h.setAcc (Cap.allows_mono h.accCap ?_) fun hinf => by simp [hinf, Cap.room] at hroom
      rw [hacc, accOf_eq_append bodies tail, List.length_append]
      exact Nat.le_add_right ..

/-- Taking bytes from the front of the queue and accepting samples keeps the invariant. -/
theorem inv_take {s : State} (h : s.Inv) {front rest : Bytes} (hacc : s.acc = front ++ rest)
    (vs : List (BitVec 8)) : (({ s with acc := rest } : State).withSamples vs).Inv := by
  have hlen : rest.length ≤ s.acc.length := by rw [hacc, List.length_append]; exact Nat.le_add_left ..
  exact (h.setAcc (Cap.allows_mono h.accCap hlen) h.discBounded).withSamples vs

theorem inv_serExtract {s : State} (h : s.Inv) : (serExtract s).state.Inv := by
  by_cases hd : dollar ∈ s.acc
  · obtain ⟨body, rest, hacc, hbody⟩ := exists_first_frame hd
    rw [serExtract_of_frame hacc hbody, takeFrame_state]
    exact inv_take h (hacc.trans (List.append_cons ..)) _
  · rwa [serExtract_none hd]

theorem inv_serDrain {s : State} (h : s.Inv) : (serDrain s).state.Inv := by
  obtain ⟨bodies, tail, hacc, hbodies, htail⟩ := exists_accOf s.acc
  rw [serDrain, complete_state, drained_accOf hacc hbodies htail]
  exact inv_take h (hacc.trans (accOf_eq_append bodies tail)) _

/-! ### The AI framer keeps it -/

theorem State.Inv.afterI2C {s : State} (h : s.Inv) (n : Nat) : (s.afterI2C n).Inv :=
  h.congr rfl rfl rfl rfl rfl rfl rfl

theorem inv_aiPoll {s : State} (h : s.Inv) : (aiPoll s).state.Inv := by
  rcases aiPoll_cases s with hs | ⟨len, -, -, hs | ⟨i, hi, hs⟩ | ⟨t, ht, hs⟩⟩ <;> rw [hs]
  · exact h.afterI2C 4
  · exact (h.afterI2C 4).afterI2C (len + 1)
  · exact ((h.afterI2C 4).afterI2C (len + 1)).setSlot hi
  · exact ((h.afterI2C 4).afterI2C (len + 1)).setSlot ht

/-! ### The pixel codec keeps it -/

theorem Memory.read_of_mem {m : Memory} (hm : m.wf) {c : Host.Cell} (hc : c ∈ m) : m.read c.1 = c.2 := by
  induction m with
  | nil => cases hc
  | cons d m ih =>
    obtain ⟨hlt, -, hm'⟩ := Memory.wf_cons.mp hm
    rcases List.mem_cons.mp hc with rfl | hc
    · exact if_pos rfl
    · exact (if_neg (hlt c hc).ne).trans (ih hm' hc)

/-- A canonical list stays inside the buffer when nothing is to be read past its end. -/
theorem Memory.within_of_read {m : Memory} (hm : m.wf) {size : Nat} (h : ∀ o, size ≤ o → m.read o = 0#8) :
    m.within size := by
  intro c hc
  by_contra hout
  exact hm.2 c hc ((Memory.read_of_mem hm hc).symm.trans (h c.1 (Nat.not_lt.mp hout)))

theorem Memory.read_of_within {m : Memory} {size : Nat} (h : m.within size) {o : Nat} (ho : size ≤ o) :
    m.read o = 0#8 := by
  induction m with
  | nil => rfl
  | cons d m ih =>
    have hd : d.1 ≠ o := ((h d (by simp)).trans_le ho).ne
    exact (if_neg hd).trans (ih fun c hc => h c (by simp [hc]))

/-- No rule lists an offset past the buffer's end: it changes active bytes only, and they are inside. -/
theorem effectOf_within (i : Instr) {s : State} (h : s.Inv) :
    (effectOf i s).state.buf.within s.cfg.bufSize := by
  refine Memory.within_of_read (effectOf_wf i h.bufWf) fun o ho => ?_
  have hout : ¬activeOffset s.cfg o := fun hact => Nat.not_le.mpr (hact.2.trans_le (Config.activeHi_le s.cfg)) ho
  exact ((effectOf_read i h.bufWf o).resolve_right fun hact => hout hact.1).trans
    (Memory.read_of_within h.bufWithin ho)

theorem inv_pixel {i : Instr} (hi : isPixel i) {s : State} (h : s.Inv) : (effectOf i s).state.Inv := by
  have hcfg : (effectOf i s).state.cfg = s.cfg := (effectOf_frame i s).1
  have hbuf := h.setBuf (effectOf_wf i h.bufWf) (effectOf_within i h)
  rw [effectOf_state_of_isPixel hi]
  exact hbuf.congr hcfg rfl rfl rfl rfl rfl rfl

/-- Every rule keeps the invariant, family by family. -/
theorem effectOf_inv (i : Instr) {s : State} (h : s.Inv) : (effectOf i s).state.Inv := by
  rcases family_cases i with hi | hi | hi | hi
  · rwa [effectOf_state_of_isControl hi]
  · rcases hi with rfl | rfl | ⟨b, rfl⟩
    · exact inv_serExtract h
    · exact inv_serDrain h
    · exact inv_serFeed h b
  · rcases hi with rfl | rfl
    · exact inv_aiPoll h
    · rw [effectOf, aiTake_state]
      exact h.setSlot trivial
  · exact inv_pixel hi h

theorem Effect.respond_inv {e : Effect} (h : e.state.Inv) : e.respond.Inv := h.congr rfl rfl rfl rfl rfl rfl rfl

theorem inv_resetWith (c : Config) : (State.resetWith c).Inv where
  bufWf := Memory.wf_nil
  bufWithin := fun _ hc => nomatch hc
  accCap := by
    change Cap.allows c.accCap 0 = true
    cases c.accCap with
    | inf => rfl
    | bounded n => exact decide_eq_true n.zero_le
  discBounded := fun _ => rfl
  telemImage := ⟨0#8, rfl⟩
  telemUnset := fun _ => rfl
  slotOk := trivial

theorem inv_resetInput (s : State) : s.resetInput.Inv :=
  (inv_resetWith s.cfg).congr rfl rfl rfl rfl rfl rfl rfl

/-- Settles O19: rules and reset keep the invariant. -/
theorem stepKeepsInvariant : Obligations.StepKeepsInvariant :=
  fun _ _ => step_keeps (fun _ _ h => h.congr rfl rfl rfl rfl rfl rfl rfl) (fun s _ => inv_resetInput s)
    (fun _ => Effect.respond_inv) fun i _ => effectOf_inv i

/-! ### Dark bytes (R139, R143) -/

theorem outsideDark_effectOf (i : Instr) {s : State} (hwf : s.buf.wf) (h : s.OutsideDark) :
    (effectOf i s).state.OutsideDark := by
  intro o ho
  rw [(effectOf_frame i s).1] at ho
  exact ((effectOf_read i hwf o).resolve_right fun hact => ho hact.1).trans (h o ho)

theorem whiteDark_effectOf (i : Instr) {s : State} (hwf : s.buf.wf) (h : s.WhiteDark) :
    (effectOf i s).state.WhiteDark := by
  intro hmode p
  rw [(effectOf_frame i s).1] at hmode
  rcases effectOf_read i hwf (4 * p + 3) with hold | ⟨-, hwhite⟩
  · exact hold.trans (h hmode p)
  · exact hwhite hmode (by omega)

/-- Settles O21: with the invariant, each of the two is kept by every rule and by a reset. -/
theorem stepKeepsUnwrittenBytesDark : Obligations.StepKeepsUnwrittenBytesDark := by
  refine fun s t hinv hstep => ⟨fun hdark => ?_, fun hdark => ?_⟩
  · refine (step_keeps (P := fun s => s.buf.wf ∧ s.OutsideDark) (fun _ _ h => h) (fun _ _ => ?_) (fun _ h => h)
      (fun i _ h => ⟨effectOf_wf i h.1, outsideDark_effectOf i h.1 h.2⟩) ⟨hinv.bufWf, hdark⟩ hstep).2
    exact ⟨Memory.wf_nil, fun _ _ => rfl⟩
  · refine (step_keeps (P := fun s => s.buf.wf ∧ s.WhiteDark) (fun _ _ h => h) (fun _ _ => ?_) (fun _ h => h)
      (fun i _ h => ⟨effectOf_wf i h.1, whiteDark_effectOf i h.1 h.2⟩) ⟨hinv.bufWf, hdark⟩ hstep).2
    exact ⟨Memory.wf_nil, fun _ _ => rfl⟩

/-! ### The ports (R58, R59, R192) -/

theorem State.ReadsBounded.congr {s t : State} (h : s.ReadsBounded) (hcfg : t.cfg = s.cfg)
    (hreads : t.i2cReads = s.i2cReads) : t.ReadsBounded := by
  rw [State.ReadsBounded, hcfg, hreads]
  exact h

theorem State.ReadsBounded.afterI2C {s : State} (h : s.ReadsBounded) {n : Nat}
    (hn : n = 4 ∨ 2 ≤ n ∧ n ≤ 8193) : (s.afterI2C n).ReadsBounded := by
  intro r hr
  rcases List.mem_append.mp hr with hr | hr
  · exact h r hr
  · obtain rfl := List.mem_singleton.mp hr
    exact ⟨rfl, hn, s.i2cData_length_le n⟩

theorem readsBounded_aiPoll {s : State} (h : s.ReadsBounded) : (aiPoll s).state.ReadsBounded := by
  have hheader := h.afterI2C (n := 4) (.inl rfl)
  rcases aiPoll_cases s with hs | ⟨len, hlo, hhi, hs⟩
  · rwa [hs]
  · have hbody := hheader.afterI2C (n := len + 1) (.inr (by omega))
    rcases hs with hs | ⟨i, -, hs⟩ | ⟨t, -, hs⟩ <;> rw [hs]
    · exact hbody
    · exact hbody.congr rfl rfl
    · exact hbody.congr rfl rfl

/-- Only AI_POLL reads the transport (R58). -/
theorem readsBounded_effectOf (i : Instr) {s : State} (h : s.ReadsBounded) :
    (effectOf i s).state.ReadsBounded := by
  have hcfg : (effectOf i s).state.cfg = s.cfg := (effectOf_frame i s).1
  rcases family_cases i with hi | hi | hi | hi
  · rwa [effectOf_state_of_isControl hi]
  · exact h.congr hcfg (by rw [effectOf_state_of_isSerial hi]; rfl)
  · rcases hi with rfl | rfl
    · exact readsBounded_aiPoll h
    · rw [effectOf, aiTake_state]
      exact h.congr rfl rfl
  · exact h.congr hcfg (by rw [effectOf_state_of_isPixel hi]; rfl)

theorem State.FramesWhole.congr {s t : State} (h : s.FramesWhole) (hcfg : t.cfg = s.cfg)
    (hframes : t.ledFrames = s.ledFrames) : t.FramesWhole := by
  rw [State.FramesWhole, hcfg, hframes]
  exact h

theorem State.FramesWhole.emitLED {s : State} (h : s.FramesWhole) : s.emitLED.FramesWhole := by
  intro f hf
  rcases List.mem_append.mp hf with hf | hf
  · exact h f hf
  · obtain rfl := List.mem_singleton.mp hf
    exact s.bufBytes_length

/-- PIX_CLEAR and PIX_SHOW end in EmitLED; every other rule keeps the frames (R137). -/
theorem framesWhole_effectOf (i : Instr) {s : State} (h : s.FramesWhole) : (effectOf i s).state.FramesWhole := by
  by_cases hclear : i = .pixClear
  · subst hclear
    exact (h.congr (zeroActive_cfg s) (zeroActive_ledFrames s)).emitLED
  by_cases hshow : i = .pixShow
  · subst hshow
    exact h.emitLED
  exact h.congr (effectOf_frame i s).1 (effectOf_ledFrames hclear hshow s)

/-- Settles O22: rules and reset keep both bounds. -/
theorem stepKeepsPortBounds : Obligations.StepKeepsPortBounds := by
  refine fun s t hstep => ⟨fun h => ?_, fun h => ?_⟩
  · exact step_keeps (fun _ _ h => h.congr rfl rfl) (fun _ h => h.congr rfl rfl) (fun _ h => h.congr rfl rfl)
      (fun i _ => readsBounded_effectOf i) h hstep
  · exact step_keeps (fun _ _ h => h.congr rfl rfl) (fun _ h => h.congr rfl rfl) (fun _ h => h.congr rfl rfl)
      (fun i _ => framesWhole_effectOf i) h hstep

/-! ### After reset (R177, R141) -/

/-- Settles O18: every buffer byte reads 0 and nothing has been read or emitted. -/
theorem resetStateMeetsInvariants : Obligations.ResetStateMeetsInvariants :=
  ⟨fun c => ⟨inv_resetWith c, fun o _ => State.memRead_resetWith c o,
    fun _ p => State.memRead_resetWith c (4 * p + 3), fun _ hr => (nomatch hr), fun _ hf => (nomatch hf)⟩,
    inv_resetWith Config.chosen⟩

/-- With nothing but 0 outside the active region PIX_CLEAR leaves the empty list: all 0 has one canonical form. -/
theorem pixClear_buf_of_outsideDark {s : State} (hwf : s.buf.wf) (hdark : s.OutsideDark) :
    (pixClear s).state.buf = [] := by
  refine Memory.ext_read (effectOf_wf .pixClear hwf) Memory.wf_nil fun o => ?_
  have hread : (pixClear s).state.buf.read o = if activeOffset s.cfg o then 0#8 else s.memRead o :=
    zeroActive_read hwf o
  rw [hread, Memory.read_nil]
  split_ifs with ho
  · rfl
  · exact hdark o ho

/-- Settles O51: any run from reset keeps the bytes outside the active region 0, and PIX_CLEAR zeroes the others. -/
theorem clearRestoresTheResetBuffer : Obligations.ClearRestoresTheResetBuffer := by
  intro c is _
  obtain ⟨hwf, hdark⟩ : (runAll is (State.resetWith c)).buf.wf ∧ (runAll is (State.resetWith c)).OutsideDark :=
    runAll_keeps (P := fun s => s.buf.wf ∧ s.OutsideDark)
      (fun i _ _ h => ⟨effectOf_wf i h.1, outsideDark_effectOf i h.1 h.2⟩)
      ⟨Memory.wf_nil, fun o _ => State.memRead_resetWith c o⟩
  refine ⟨_, execAll_eq _ _, ?_⟩
  rw [runAll_append]
  exact pixClear_buf_of_outsideDark hwf hdark

end Sys2Proof.Machine
end
